-- ==== Sys2Proof/Config.lean ====
section
/-! DEFINITION. The construction parameters of the block (00_scope.md R7). The block has one configuration option of
its own, `N`; `ACCESS_SIZES` is the spec's parameter for the sizes it admits. The third parameter of R7,
`HOST_READ_TRUNCATION`, belongs to the bus outside the block and is an argument of
`Sys2Proof.Machine.requesterData` (Machine/Operands.lean). -/

namespace Sys2Proof

/-- The parameters fixed at construction (00_scope.md R7; 92_eei_decisions.md D2, D8). -/
structure Config where
  /-- `N` (`num_irqs`), the number of line registers and of input lines. -/
  numIrqs : Nat
  /-- `ACCESS_SIZES`, the access sizes in bytes that the block admits. -/
  accessSizes : List Nat
deriving DecidableEq, Repr

/-- The defaults of R7: 64 lines, and sizes 1, 2, 4 and 8. -/
def Config.standard : Config :=
  { numIrqs := 64, accessSizes := [1, 2, 4, 8] }

/-- The configurations that the spec admits: `N >= 1` and `N + 4 <= 2^64` (R7, D8), and every admitted size is at
least one byte and fits the 64-bit read data (20_memory.md R46). -/
def Config.wf (c : Config) : Bool :=
  decide (1 ≤ c.numIrqs) && decide (c.numIrqs + 4 ≤ 2 ^ 64)
    && c.accessSizes.all (fun z => decide (1 ≤ z) && decide (z ≤ 8))

end Sys2Proof
end

