-- ==== Sys2Proof/Word.lean ====
section
/-! DEFINITION. The bit-vector types of the interrupt aggregator: what the spec treats as bits. -/

namespace Sys2Proof

/-- A line register: 8 bits (10_state.md R23). -/
abbrev Byte := BitVec 8

/-- The status word: 32 bits (10_state.md R21). -/
abbrev StatusWord := BitVec 32

/-- Bus offsets, read data, write data, input-line indices and debug indices: 64 bits (00_scope.md R7, R9). -/
abbrev Word := BitVec 64

/-- The header `H = D[15:0]` of a descriptor (30_encoding.md R61). -/
abbrev Header := BitVec 16

/-- One operation of the host, as the spec encodes it: 144 bits, all descriptors of one length (30_encoding.md R60, R70). -/
abbrev Descriptor := BitVec 144

end Sys2Proof
end

