-- ==== Sys2Proof/Syntax.lean ====
section
/-! DEFINITION. The block's operations (the spec's word where an ISA spec says instructions, 00_scope.md R2): one
constructor of `Instr` per row of spec/opcode_table.json. The seven operations of R2 are told apart by `OpCode`; the
table splits a bus read into four rows and a bus write into three, by where the offset decodes (30_encoding.md R66). -/

namespace Sys2Proof

/-- The seven operations of the block, by their operation codes `0x1` to `0x7` (30_encoding.md R62). -/
inductive OpCode where
  | busRead
  | busWrite
  | lineEvent
  | dbgSet
  | dbgClear
  | dbgEnable
  | dbgDisable
deriving DecidableEq, Repr

/-- One decoded operation. Offsets, indices and data are the 64-bit operand fields as presented; a size is a number of
bytes (30_encoding.md R64). -/
inductive Instr where
  /-- BUS_READ.STATUS: a read at offset 0 (40_register_access.md R81). -/
  | readStatus (size : Nat)
  /-- BUS_READ.LINE: a read that stays within the line registers (R82). -/
  | readLine (offset : Word) (size : Nat)
  /-- BUS_READ.OVERRUN: a read that starts in the line range and runs past line `N - 1` (R83). -/
  | readOverrun (offset : Word) (size : Nat)
  /-- BUS_READ.INVALID: a read at an offset of no register (R84). -/
  | readInvalid (offset : Word) (size : Nat)
  /-- BUS_WRITE.STATUS: a write at offset 0 (R86). -/
  | writeStatus (size : Nat) (value : Word)
  /-- BUS_WRITE.LINE: a write in the line range (R87). -/
  | writeLine (offset : Word) (size : Nat) (value : Word)
  /-- BUS_WRITE.INVALID: a write at an offset of no register (R88). -/
  | writeInvalid (offset : Word) (size : Nat) (value : Word)
  /-- LINE_EVENT: an input-line level event; the index is unsigned (42_input_adapter.md R110). -/
  | lineEvent (index : Word) (level : Bool)
  /-- DBG_SET, the property `set-irq`; the index is two's complement signed (43_debug_control.md R121). -/
  | dbgSet (index : Word)
  /-- DBG_CLEAR, the property `clear-irq` (R122). -/
  | dbgClear (index : Word)
  /-- DBG_ENABLE, the property `enable-irq` (R123). -/
  | dbgEnable (index : Word)
  /-- DBG_DISABLE, the property `disable-irq` (R124). -/
  | dbgDisable (index : Word)
deriving DecidableEq, Repr

/-- The operation a row of the table belongs to. -/
def Instr.opCode : Instr → OpCode
  | .readStatus _ => .busRead
  | .readLine _ _ => .busRead
  | .readOverrun _ _ => .busRead
  | .readInvalid _ _ => .busRead
  | .writeStatus _ _ => .busWrite
  | .writeLine _ _ _ => .busWrite
  | .writeInvalid _ _ _ => .busWrite
  | .lineEvent _ _ => .lineEvent
  | .dbgSet _ => .dbgSet
  | .dbgClear _ => .dbgClear
  | .dbgEnable _ => .dbgEnable
  | .dbgDisable _ => .dbgDisable

/-- The host's name of a debug-control operation; the source names no other operation (30_encoding.md R71). -/
def OpCode.hostProperty : OpCode → Option String
  | .busRead => none
  | .busWrite => none
  | .lineEvent => none
  | .dbgSet => some "set-irq"
  | .dbgClear => some "clear-irq"
  | .dbgEnable => some "enable-irq"
  | .dbgDisable => some "disable-irq"

/-- Why a descriptor spells no operation: the six grounds of 30_encoding.md R65, in its order. -/
inductive DescriptorRefusal where
  /-- Ground 1: the operation code is `0x0` or `0x8` to `0xF`. -/
  | reservedOp
  /-- Ground 2: `D[15:9]` is not 0. -/
  | reservedBits
  /-- Ground 3: a bus operation whose size is not in `ACCESS_SIZES`. -/
  | sizeNotAdmitted
  /-- Ground 4: no bus operation, and the size field is not 0. -/
  | sizeNotZero
  /-- Ground 5: no LINE_EVENT, and the level bit is not 0. -/
  | levelNotZero
  /-- Ground 6: no BUS_WRITE, and `V` is not 0. -/
  | dataNotZero
deriving DecidableEq, Repr

end Sys2Proof
end

