-- ==== Sys2Proof/WellFormed.lean ====
section
/-! DEFINITION. When a term of `Instr` is an operation of a block with a given configuration: the size is admitted, and
the offset satisfies the `select` condition that spec/opcode_table.json gives the row (30_encoding.md R65, R66;
40_register_access.md R81 to R88). Input indices and debug indices are unrestricted: every value is an operand
(30_encoding.md R65, last paragraph). -/

namespace Sys2Proof

/-- The size of a bus access: one that the configuration admits, and that the 4-bit size field can hold
(20_memory.md R46, 30_encoding.md R61). -/
def sizeWf (c : Config) (size : Nat) : Bool :=
  c.accessSizes.contains size && decide (size < 16)

/-- The offset of a line register: `4 <= offset < 4 + N`. -/
def inLineRange (c : Config) (offset : Word) : Bool :=
  decide (4 ≤ offset.toNat) && decide (offset.toNat < 4 + c.numIrqs)

/-- The offset of no register: 1, 2, 3, or `4 + N` and above. -/
def inNoRegister (c : Config) (offset : Word) : Bool :=
  (decide (1 ≤ offset.toNat) && decide (offset.toNat ≤ 3)) || decide (4 + c.numIrqs ≤ offset.toNat)

/-- The well-formed operations of a block with configuration `c`. -/
def Instr.wf (c : Config) : Instr → Bool
  | .readStatus size => sizeWf c size
  | .readLine offset size =>
      sizeWf c size && inLineRange c offset && decide ((offset.toNat - 4) + size ≤ c.numIrqs)
  | .readOverrun offset size =>
      sizeWf c size && inLineRange c offset && decide (c.numIrqs < (offset.toNat - 4) + size)
  | .readInvalid offset size => sizeWf c size && inNoRegister c offset
  | .writeStatus size _ => sizeWf c size
  | .writeLine offset size _ => sizeWf c size && inLineRange c offset
  | .writeInvalid offset size _ => sizeWf c size && inNoRegister c offset
  | .lineEvent _ _ => true
  | .dbgSet _ => true
  | .dbgClear _ => true
  | .dbgEnable _ => true
  | .dbgDisable _ => true

end Sys2Proof
end

