-- ==== Sys2Proof/Decode.lean ====
section
/-! DEFINITION. Descriptors: their fields, the header patterns, the address decode, the decoder (total on all 144-bit
descriptors, refusing by name), and the encoder (30_encoding.md R60 to R72). -/

namespace Sys2Proof

/-! ### The descriptor's fields (R61) -/

/-- The fields of a descriptor, in R61's order. -/
structure Fields where
  op : BitVec 4
  size : BitVec 4
  level : BitVec 1
  reserved : BitVec 7
  a : Word
  v : Word
deriving DecidableEq, Repr

/-- R61: `op = D[3:0]`, `size = D[7:4]`, `level = D[8]`, reserved `D[15:9]`, `A = D[79:16]`, `V = D[143:80]`. -/
def fieldsOf (d : Descriptor) : Fields :=
  { op := d.extractLsb' 0 4
    size := d.extractLsb' 4 4
    level := d.extractLsb' 8 1
    reserved := d.extractLsb' 9 7
    a := d.extractLsb' 16 64
    v := d.extractLsb' 80 64 }

/-- The descriptor with the given fields, each at its place in R61. -/
def packFields (f : Fields) : Descriptor :=
  f.v ++ f.a ++ f.reserved ++ f.level ++ f.size ++ f.op

/-- The header `H = D[15:0]` (R61). -/
def headerOf (d : Descriptor) : Header := d.extractLsb' 0 16

/-- The spec's way to write a descriptor, `H=0xhhhh A=0x… V=0x…` (R61). -/
def descriptorOf (h : Header) (a v : Word) : Descriptor := v ++ a ++ h

/-! ### Operation codes and header patterns (R62, R63) -/

/-- R62, read from left to right: the operation of a code, none for the reserved codes. -/
def opCodeOf (op : BitVec 4) : Option OpCode :=
  match op.toNat with
  | 1 => some .busRead
  | 2 => some .busWrite
  | 3 => some .lineEvent
  | 4 => some .dbgSet
  | 5 => some .dbgClear
  | 6 => some .dbgEnable
  | 7 => some .dbgDisable
  | _ => none

/-- R62, read from right to left: the code of an operation. -/
def opBits : OpCode → BitVec 4
  | .busRead => 0x1#4
  | .busWrite => 0x2#4
  | .lineEvent => 0x3#4
  | .dbgSet => 0x4#4
  | .dbgClear => 0x5#4
  | .dbgEnable => 0x6#4
  | .dbgDisable => 0x7#4

/-- The `match` of an operation's header pattern (R63, and the `match` column of the opcode table). -/
def headerMatch : OpCode → Header
  | .busRead => 0x0001#16
  | .busWrite => 0x0002#16
  | .lineEvent => 0x0003#16
  | .dbgSet => 0x0004#16
  | .dbgClear => 0x0005#16
  | .dbgEnable => 0x0006#16
  | .dbgDisable => 0x0007#16

/-- The `mask` of an operation's header pattern (R63, and the `mask` column of the opcode table). -/
def headerMask : OpCode → Header
  | .busRead => 0xFF0F#16
  | .busWrite => 0xFF0F#16
  | .lineEvent => 0xFEFF#16
  | .dbgSet => 0xFFFF#16
  | .dbgClear => 0xFFFF#16
  | .dbgEnable => 0xFFFF#16
  | .dbgDisable => 0xFFFF#16

/-- Whether the operation is one of the two bus operations. -/
def isBusOp : OpCode → Bool
  | .busRead => true
  | .busWrite => true
  | .lineEvent => false
  | .dbgSet => false
  | .dbgClear => false
  | .dbgEnable => false
  | .dbgDisable => false

/-! ### Address decode (R41, R66) -/

/-- `BASE_OFFSET`: the offset of line register 0 (00_scope.md R7). -/
def baseOffset : Nat := 4

/-- Where a read's offset and size lead (R66). -/
inductive ReadTarget where
  | status
  | lines (first count : Nat)
  | overrun
  | invalid
deriving DecidableEq, Repr

/-- Where a write's offset leads (R66). -/
inductive WriteTarget where
  | status
  | line (index : Nat)
  | invalid
deriving DecidableEq, Repr

/-- `DecodeRead` of R66 for a block of `n` lines, the conditions tested in R66's order. -/
def decodeRead (n : Nat) (offset : Word) (size : Nat) : ReadTarget :=
  if offset.toNat = 0 then .status
  else if baseOffset ≤ offset.toNat ∧ offset.toNat < baseOffset + n then
    if (offset.toNat - baseOffset) + size ≤ n then .lines (offset.toNat - baseOffset) size
    else .overrun
  else .invalid

/-- `DecodeWrite` of R66: the size plays no part, and a write has no overrun. -/
def decodeWrite (n : Nat) (offset : Word) : WriteTarget :=
  if offset.toNat = 0 then .status
  else if baseOffset ≤ offset.toNat ∧ offset.toNat < baseOffset + n then
    .line (offset.toNat - baseOffset)
  else .invalid

/-- The row of a bus read, by its target (R80). -/
def selectRead (n : Nat) (offset : Word) (size : Nat) : Instr :=
  match decodeRead n offset size with
  | .status => .readStatus size
  | .lines _ _ => .readLine offset size
  | .overrun => .readOverrun offset size
  | .invalid => .readInvalid offset size

/-- The row of a bus write, by its target (R85). -/
def selectWrite (n : Nat) (offset : Word) (size : Nat) (value : Word) : Instr :=
  match decodeWrite n offset with
  | .status => .writeStatus size value
  | .line _ => .writeLine offset size value
  | .invalid => .writeInvalid offset size value

/-! ### The decoder (R64, R65) -/

/-- What the decoder answers: an operation, or the ground on which it refuses. -/
inductive Decoded where
  | instr (i : Instr)
  | refuse (r : DescriptorRefusal)
deriving DecidableEq, Repr

/-- Grounds 2 to 6 of R65 for a descriptor whose operation code is `op`, the first that holds in R65's order. -/
def fieldRefusal (c : Config) (op : OpCode) (f : Fields) : Option DescriptorRefusal :=
  if f.reserved ≠ 0#7 then some .reservedBits
  else if isBusOp op = true ∧ c.accessSizes.contains f.size.toNat = false then some .sizeNotAdmitted
  else if isBusOp op = false ∧ f.size ≠ 0#4 then some .sizeNotZero
  else if op ≠ .lineEvent ∧ f.level ≠ 0#1 then some .levelNotZero
  else if op ≠ .busWrite ∧ f.v ≠ 0#64 then some .dataNotZero
  else none

/-- The operation that admitted fields spell, its operands assembled as R64 says. -/
def instrOf (n : Nat) (op : OpCode) (f : Fields) : Instr :=
  match op with
  | .busRead => selectRead n f.a f.size.toNat
  | .busWrite => selectWrite n f.a f.size.toNat f.v
  | .lineEvent => .lineEvent f.a (f.level == 1#1)
  | .dbgSet => .dbgSet f.a
  | .dbgClear => .dbgClear f.a
  | .dbgEnable => .dbgEnable f.a
  | .dbgDisable => .dbgDisable f.a

/-- The decoder of a block with configuration `c` (R63 to R65). -/
def decode (c : Config) (d : Descriptor) : Decoded :=
  match opCodeOf (fieldsOf d).op with
  | none => .refuse .reservedOp
  | some op =>
    match fieldRefusal c op (fieldsOf d) with
    | some r => .refuse r
    | none => .instr (instrOf c.numIrqs op (fieldsOf d))

/-- The operation of a decoder's answer, if it is one. -/
def Decoded.instr? : Decoded → Option Instr
  | .instr i => some i
  | .refuse _ => none

/-! ### The encoder (R61, R62, R72) -/

/-- The fields of a bus read's descriptor. -/
def readFields (offset : Word) (size : Nat) : Fields :=
  { op := opBits .busRead, size := BitVec.ofNat 4 size, level := 0#1, reserved := 0#7, a := offset, v := 0#64 }

/-- The fields of a bus write's descriptor. -/
def writeFields (offset : Word) (size : Nat) (value : Word) : Fields :=
  { op := opBits .busWrite, size := BitVec.ofNat 4 size, level := 0#1, reserved := 0#7, a := offset, v := value }

/-- The fields of a LINE_EVENT's descriptor. -/
def lineEventFields (index : Word) (level : Bool) : Fields :=
  { op := opBits .lineEvent, size := 0#4, level := BitVec.ofBool level, reserved := 0#7, a := index, v := 0#64 }

/-- The fields of a debug-control operation's descriptor. -/
def debugFields (op : OpCode) (index : Word) : Fields :=
  { op := opBits op, size := 0#4, level := 0#1, reserved := 0#7, a := index, v := 0#64 }

/-- The fields that spell an operation, written from the Descriptor column of R72. -/
def encodeFields : Instr → Fields
  | .readStatus size => readFields 0#64 size
  | .readLine offset size => readFields offset size
  | .readOverrun offset size => readFields offset size
  | .readInvalid offset size => readFields offset size
  | .writeStatus size value => writeFields 0#64 size value
  | .writeLine offset size value => writeFields offset size value
  | .writeInvalid offset size value => writeFields offset size value
  | .lineEvent index level => lineEventFields index level
  | .dbgSet index => debugFields .dbgSet index
  | .dbgClear index => debugFields .dbgClear index
  | .dbgEnable index => debugFields .dbgEnable index
  | .dbgDisable index => debugFields .dbgDisable index

/-- The descriptor of an operation. -/
def encode (i : Instr) : Descriptor := packFields (encodeFields i)

/-! ### The script forms of R72 -/

/-- `rd <offset>, <size>`. -/
def scriptRd (offset : Word) (size : Nat) : Descriptor := packFields (readFields offset size)

/-- `wr <offset>, <size>, <value>`. -/
def scriptWr (offset : Word) (size : Nat) (value : Word) : Descriptor := packFields (writeFields offset size value)

/-- `line <index>, <level>`. -/
def scriptLine (index : Word) (level : Bool) : Descriptor := packFields (lineEventFields index level)

/-- `set-irq <index>`, the index a signed number put into `A` as two's complement. -/
def scriptSetIrq (index : Int) : Descriptor := packFields (debugFields .dbgSet (BitVec.ofInt 64 index))

/-- `clear-irq <index>`. -/
def scriptClearIrq (index : Int) : Descriptor := packFields (debugFields .dbgClear (BitVec.ofInt 64 index))

/-- `enable-irq <index>`. -/
def scriptEnableIrq (index : Int) : Descriptor := packFields (debugFields .dbgEnable (BitVec.ofInt 64 index))

/-- `disable-irq <index>`. -/
def scriptDisableIrq (index : Int) : Descriptor := packFields (debugFields .dbgDisable (BitVec.ofInt 64 index))

/-! ### The opcode table's words -/

/-- The descriptor whose low `nbits` bits are `w` and whose other bits are 0; bit 0 of the table's numbering is bit 0
of the descriptor (R61). -/
def tableDescriptor (nbits w : Nat) : Descriptor := BitVec.ofNat 144 (w % 2 ^ nbits)

/-- What the decoder of the default configuration (`N = 64`, sizes 1, 2, 4, 8; 00_scope.md R7) reads from that
descriptor. -/
def decodeTableWord (nbits w : Nat) : Option Instr :=
  (decode Config.standard (tableDescriptor nbits w)).instr?

end Sys2Proof
end

