-- ==== Sys2Proof/Machine/State.lean ====
section
/-! DEFINITION. The state of the block (10_state.md), the events a step emits, the reasons a step can stop, and the
state after construction. The block has no memory (20_memory.md R40), no program counter and no flags (10_state.md
R30); the sequence of operations that the host presents, and the position in it, stand in State as
92_eei_decisions.md D19 says. -/

namespace Sys2Proof.Machine

/-- The fault mark (10_state.md R27). -/
inductive FaultMark where
  /-- No contract violation so far: the value at reset. -/
  | none
  /-- A LINE_EVENT named a line that does not exist (42_input_adapter.md R112). -/
  | invalidInputLine (index : Word)
deriving DecidableEq, Repr

/-- The arguments of a diagnostic log event (60_exceptions.md R143). Its text is no part of the model (00_scope.md R6). -/
inductive LogEntry where
  | invalidRead (offset : Word) (size : Nat)
  | invalidWrite (offset : Word) (size : Nat) (value : Word)
deriving DecidableEq, Repr

/-- One output of a step (10_state.md R28). -/
inductive Event where
  /-- The response of a bus read. -/
  | readData (value : Word)
  /-- One drive of the output line (41_update_engine.md R102). -/
  | drive (level : Bool)
  /-- One diagnostic log event. -/
  | log (entry : LogEntry)
deriving DecidableEq, Repr

/-- The whole state. `N` is the number of line registers (10_state.md R24), so it is `lines.length` and has no field
of its own. -/
structure State where
  /-- `ACCESS_SIZES`, fixed at construction (00_scope.md R7). -/
  accessSizes : List Nat
  /-- The status word (10_state.md R21). -/
  status : StatusWord
  /-- `line[0]` to `line[N-1]`, in order (10_state.md R23, R24). -/
  lines : List Byte
  /-- The level on `irq_out`, as last driven (10_state.md R25, 41_update_engine.md R102). -/
  irqOut : Bool
  /-- The fault mark, which only the model has (10_state.md R27). -/
  faultMark : FaultMark
  /-- The outputs so far, oldest first (10_state.md R28). -/
  trace : List Event
  /-- The sequence of descriptors that the host presents (70_reset_and_hazards.md R183, D19). -/
  program : List Descriptor
  /-- How many of them have been applied: the position in the run (D19). -/
  position : Nat
deriving DecidableEq, Repr

/-- Why the machine stops with a fault. -/
inductive Fault where
  /-- Raised by a LINE_EVENT with `index >= N` (42_input_adapter.md R112): `stopped` is the state in which the block
  stands then, the fault mark set and no register changed. SAFE: the hardware's wires cannot present this event, and a
  claim about a run that commits it cannot be proved. -/
  | invalidInputLine (index : Word) (stopped : State)
  /-- Raised by `step` in a state whose fault mark is set: the block has no further step (10_state.md R27). SAFE: it
  proves nothing about what would follow. -/
  | halted (stopped : State)
deriving DecidableEq, Repr

/-- Why the model gives no meaning. -/
inductive Refusal where
  /-- Raised by `exec` for an instruction that has no meaning yet; no arm of this model raises it. SAFE. -/
  | notModelled (mnemonic : String)
  /-- Raised by `step` when the descriptor presented spells no operation (30_encoding.md R65). SAFE: "a claim about
  such a run cannot be proved". -/
  | descriptor (why : DescriptorRefusal)
  /-- Raised by `construct` for parameters that the spec does not admit, such as `N = 0` (92_eei_decisions.md D8).
  SAFE: no run starts. -/
  | configuration
deriving DecidableEq, Repr

/-- The configuration a state was constructed with: `N` is read off the register file. -/
def State.config (s : State) : Config :=
  { numIrqs := s.lines.length, accessSizes := s.accessSizes }

/-- The state that construction leaves (10_state.md R32, 70_reset_and_hazards.md R170): every register 0, the output
deasserted and not driven, no fault mark; nothing presented yet. -/
def State.ofConfig (c : Config) : State :=
  { accessSizes := c.accessSizes
    status := 0#32
    lines := List.replicate c.numIrqs 0#8
    irqOut := false
    faultMark := .none
    trace := []
    program := []
    position := 0 }

/-- The state after reset, which is construction with the default parameters (R170; `N = 64`, R32). -/
def State.reset : State := State.ofConfig Config.standard

end Sys2Proof.Machine
end

