-- ==== Sys2Proof/Machine/Flags.lean ====
section
/-! DEFINITION. The control bits of the registers and the aggregate computed from them (30_encoding.md R67,
41_update_engine.md R100). The block has no condition codes (10_state.md R30). -/

namespace Sys2Proof.Machine

/-- `GLOBAL_IRQ_ENABLED`: status bit 0 (R67; 92_eei_decisions.md D20). -/
def globalIrqEnabled : StatusWord := 0x00000001#32

/-- `IRQ_N_ACTIVE`: line bit 0 (R67, D20). -/
def irqNActive : Byte := 0x01#8

/-- `IRQ_N_ENABLED`: line bit 1 (R67, D20). -/
def irqNEnabled : Byte := 0x02#8

/-- `Effective(i)` of R100, of the line register's value: ACTIVE and ENABLED. -/
def effective (b : Byte) : Bool :=
  (b &&& irqNActive != 0#8) && (b &&& irqNEnabled != 0#8)

/-- `AnyActive(line)` of R100: the OR over all lines. -/
def anyActive (lines : List Byte) : Bool := lines.any effective

/-- `Aggregate(status, line)` of R100: the OR, gated by the global enable. -/
def aggregate (status : StatusWord) (lines : List Byte) : Bool :=
  if status &&& globalIrqEnabled ≠ 0#32 then anyActive lines else false

/-- ACTIVE set, every other bit kept (42_input_adapter.md R110, 43_debug_control.md R121). -/
def setActive (b : Byte) : Byte := b ||| irqNActive

/-- ACTIVE cleared, every other bit kept: the AND with `0xFE` (R110, R122). -/
def clearActive (b : Byte) : Byte := b &&& ~~~irqNActive

/-- ENABLED set, every other bit kept (R123). -/
def setEnabled (b : Byte) : Byte := b ||| irqNEnabled

/-- ENABLED cleared, every other bit kept: the AND with `0xFD` (R124). -/
def clearEnabled (b : Byte) : Byte := b &&& ~~~irqNEnabled

end Sys2Proof.Machine
end

