-- ==== Sys2Proof/Machine/Operands.lean ====
section
/-! DEFINITION. How operands and register contents become values: read-data packing, write-data assembly, line indices,
and the view of read data that a requester may get behind the bus. -/

namespace Sys2Proof.Machine

/-- The read data of a status read: `zext_64(status)`, whatever the size (40_register_access.md R81). -/
def statusData (status : StatusWord) : Word := status.setWidth 64

/-- The read data of `count` line registers from `first` on, the lowest line in the lowest byte (40_register_access.md
R82, 20_memory.md R43). -/
def packLines (lines : List Byte) (first : Nat) : Nat → Word
  | 0 => 0#64
  | n + 1 => packLines lines first n ||| ((lines.getD (first + n) 0#8).setWidth 64 <<< (8 * n))

/-- What a status write stores: `V[31:0]` (30_encoding.md R68). -/
def statusOfData (value : Word) : StatusWord := value.setWidth 32

/-- What a line write stores: `V[7:0]`, whatever the size (R68, 20_memory.md R45). -/
def byteOfData (value : Word) : Byte := value.setWidth 8

/-- `DebugValid(index)`: the index, read as two's complement, lies in `0 .. N-1`; the line storage always exists
(43_debug_control.md R120). -/
def debugValid (n : Nat) (index : Word) : Bool :=
  decide (0 ≤ index.toInt) && decide (index.toInt < n)

/-- The line that a valid debug index names. -/
def debugLine (index : Word) : Nat := index.toInt.toNat

/-- `index < N` for an input-line event: the index is unsigned (30_encoding.md R64, 42_input_adapter.md R110). -/
def inputLineValid (n : Nat) (index : Word) : Bool := decide (index.toNat < n)

/-- What a requester sees of read data, by the host parameter `HOST_READ_TRUNCATION` (92_eei_decisions.md D6): the
whole 64 bits, or only the low `8*size` bits. It is the bus outside the block that does this; no operation of the block
uses it, and the parameter stays open. -/
def requesterData (truncation : Bool) (size : Nat) (rdata : Word) : Word :=
  if truncation then BitVec.ofNat 64 (rdata.toNat % 2 ^ (8 * size)) else rdata

end Sys2Proof.Machine
end

