-- ==== Sys2Proof/Machine/Ops.lean ====
section
/-! DEFINITION. The named operations over the state: the step's outputs, the update engine, register access, the fault
of the line input, the host's sequence, and construction. The block takes no exception and returns from none
(60_exceptions.md R142, R149, R150); the fault of R112 is the one way it stops. -/

namespace Sys2Proof.Machine

/-! ### Outputs of a step -/

/-- One more event at the end of the trace (10_state.md R28). -/
def emit (e : Event) (s : State) : State := { s with trace := s.trace ++ [e] }

/-- The response of a bus read (`return v`). -/
def respond (value : Word) (s : State) : State := emit (.readData value) s

/-- `Log(kind, …)` (60_exceptions.md R143). -/
def logInvalid (entry : LogEntry) (s : State) : State := emit (.log entry) s

/-- `Drive(b)`: the output line takes the level, and the drive is one event of the trace (41_update_engine.md R102). -/
def drive (level : Bool) (s : State) : State := emit (.drive level) { s with irqOut := level }

/-- `Recompute()`, the update engine's step (R101). -/
def recompute (s : State) : State := drive (aggregate s.status s.lines) s

/-! ### Registers -/

/-- `status <- w`. -/
def setStatus (w : StatusWord) (s : State) : State := { s with status := w }

/-- `line[i] <- f line[i]`; the other line registers are untouched (10_state.md R24). -/
def updateLine (i : Nat) (f : Byte → Byte) (s : State) : State := { s with lines := s.lines.modify i f }

/-! ### The register port (40_register_access.md) -/

/-- RD.STATUS (R81). -/
def rdStatus (s : State) : State := respond (statusData s.status) s

/-- RD.LINE (R82). -/
def rdLine (first count : Nat) (s : State) : State := respond (packLines s.lines first count) s

/-- RD.OVERRUN (R83): the whole access is rejected, logged, and returns 0. -/
def rdOverrun (offset : Word) (size : Nat) (s : State) : State :=
  respond 0#64 (logInvalid (.invalidRead offset size) s)

/-- RD.INVALID (R84): logged, and returns 0. -/
def rdInvalid (offset : Word) (size : Nat) (s : State) : State :=
  respond 0#64 (logInvalid (.invalidRead offset size) s)

/-- BUS_READ (R80): the first rule whose case of `DecodeRead` applies. -/
def busRead (offset : Word) (size : Nat) (s : State) : State :=
  match decodeRead s.lines.length offset size with
  | .status => rdStatus s
  | .lines first count => rdLine first count s
  | .overrun => rdOverrun offset size s
  | .invalid => rdInvalid offset size s

/-- WR.STATUS (R86): all 32 bits are replaced, whatever the size. -/
def wrStatus (value : Word) (s : State) : State := recompute (setStatus (statusOfData value) s)

/-- WR.LINE (R87): exactly one byte is written, whatever the size. -/
def wrLine (index : Nat) (value : Word) (s : State) : State :=
  recompute (updateLine index (fun _ => byteOfData value) s)

/-- WR.INVALID (R88): only the log event. -/
def wrInvalid (offset : Word) (size : Nat) (value : Word) (s : State) : State :=
  logInvalid (.invalidWrite offset size value) s

/-- BUS_WRITE (R85). -/
def busWrite (offset : Word) (size : Nat) (value : Word) (s : State) : State :=
  match decodeWrite s.lines.length offset with
  | .status => wrStatus value s
  | .line index => wrLine index value s
  | .invalid => wrInvalid offset size value s

/-! ### The line input (42_input_adapter.md) -/

/-- `raise Fault(InvalidInputLine(index))` (R112): the fault mark is set; no register changes, nothing is driven. -/
def raiseInvalidInputLine (index : Word) (s : State) : Fault :=
  .invalidInputLine index { s with faultMark := .invalidInputLine index }

/-- `SetLine` for a valid line (R110): ACTIVE takes the level, then the update engine runs. -/
def setLine (i : Nat) (level : Bool) (s : State) : State :=
  recompute (updateLine i (if level then setActive else clearActive) s)

/-! ### The debug-control port (43_debug_control.md) -/

/-- The common shape of the four debug operations (R120): with a valid index the line is changed and the update engine
runs; with an invalid one nothing at all happens. -/
def debugUpdate (index : Word) (f : Byte → Byte) (s : State) : State :=
  if debugValid s.lines.length index then recompute (updateLine (debugLine index) f s) else s

/-! ### The host's sequence of operations -/

/-- The descriptor the host presents next; none when its sequence is exhausted (92_eei_decisions.md D19). -/
def fetch (s : State) : Option Descriptor := s.program[s.position]?

/-- What happens when the host presents nothing: the state persists (60_exceptions.md R157). -/
def idle (s : State) : Host.Outcome State Fault Refusal := .next s

/-- The run moves to its next descriptor (70_reset_and_hazards.md R183). -/
def advance (s : State) : State := { s with position := s.position + 1 }

/-- The same after an operation that completed; a run that stopped keeps its position. -/
def advanceOutcome : Host.Outcome State Fault Refusal → Host.Outcome State Fault Refusal
  | .next t => .next (advance t)
  | .fault r => .fault r
  | .refused r => .refused r

/-- Whether the block has a further step at all (10_state.md R27). -/
def isHalted (s : State) : Bool := decide (s.faultMark ≠ .none)

/-- `ds` with `d` at position `p`; positions between the end of `ds` and `p` are filled with the all-zero descriptor,
which R65 refuses. -/
def placeAt (d : Descriptor) : List Descriptor → Nat → List Descriptor
  | [], 0 => [d]
  | _ :: ds, 0 => d :: ds
  | [], p + 1 => 0#144 :: placeAt d [] p
  | e :: ds, p + 1 => e :: placeAt d ds p

/-- The host presents `d` as the next operation. -/
def presentNext (d : Descriptor) (s : State) : State := { s with program := placeAt d s.program s.position }

/-- The host appends operations to its sequence. -/
def presentAll (ds : List Descriptor) (s : State) : State := { s with program := s.program ++ ds }

/-! ### Construction -/

/-- Construction with parameters `c` (70_reset_and_hazards.md R170): refused when the spec does not admit them
(92_eei_decisions.md D8). -/
def construct (c : Config) : Host.Outcome State Fault Refusal :=
  if c.wf then .next (State.ofConfig c) else .refused .configuration

end Sys2Proof.Machine
end

