-- ==== Sys2Proof/Machine/BusRead.lean ====
section
/-! DEFINITION. The meanings of the four BUS_READ rows (40_register_access.md R80 to R84). The operands alone decide
which rule serves a read (R80), so each row's meaning is that dispatch on its operands; on the operands that the decoder
gives the row, it is the row's own rule. -/

namespace Sys2Proof.Machine

/-- BUS_READ.STATUS (R81): a read at offset 0. -/
def execReadStatus (size : Nat) (s : State) : Host.Outcome State Fault Refusal :=
  .next (busRead 0#64 size s)

/-- BUS_READ.LINE (R82). -/
def execReadLine (offset : Word) (size : Nat) (s : State) : Host.Outcome State Fault Refusal :=
  .next (busRead offset size s)

/-- BUS_READ.OVERRUN (R83). -/
def execReadOverrun (offset : Word) (size : Nat) (s : State) : Host.Outcome State Fault Refusal :=
  .next (busRead offset size s)

/-- BUS_READ.INVALID (R84). -/
def execReadInvalid (offset : Word) (size : Nat) (s : State) : Host.Outcome State Fault Refusal :=
  .next (busRead offset size s)

end Sys2Proof.Machine
end

