-- ==== Sys2Proof/Machine/BusWrite.lean ====
section
/-! DEFINITION. The meanings of the three BUS_WRITE rows (40_register_access.md R85 to R88). As with reads, the operands
alone decide which rule serves a write (R85). -/

namespace Sys2Proof.Machine

/-- BUS_WRITE.STATUS (R86): a write at offset 0. -/
def execWriteStatus (size : Nat) (value : Word) (s : State) : Host.Outcome State Fault Refusal :=
  .next (busWrite 0#64 size value s)

/-- BUS_WRITE.LINE (R87). -/
def execWriteLine (offset : Word) (size : Nat) (value : Word) (s : State) : Host.Outcome State Fault Refusal :=
  .next (busWrite offset size value s)

/-- BUS_WRITE.INVALID (R88). -/
def execWriteInvalid (offset : Word) (size : Nat) (value : Word) (s : State) : Host.Outcome State Fault Refusal :=
  .next (busWrite offset size value s)

end Sys2Proof.Machine
end

