-- ==== Sys2Proof/Machine/DebugControl.lean ====
section
/-! DEFINITION. The meanings of the four debug-control operations (43_debug_control.md R120 to R127). -/

namespace Sys2Proof.Machine

/-- DBG_SET (R121): sets ACTIVE. -/
def execDbgSet (index : Word) (s : State) : Host.Outcome State Fault Refusal :=
  .next (debugUpdate index setActive s)

/-- DBG_CLEAR (R122): clears ACTIVE. -/
def execDbgClear (index : Word) (s : State) : Host.Outcome State Fault Refusal :=
  .next (debugUpdate index clearActive s)

/-- DBG_ENABLE (R123): sets ENABLED. -/
def execDbgEnable (index : Word) (s : State) : Host.Outcome State Fault Refusal :=
  .next (debugUpdate index setEnabled s)

/-- DBG_DISABLE (R124): clears ENABLED. -/
def execDbgDisable (index : Word) (s : State) : Host.Outcome State Fault Refusal :=
  .next (debugUpdate index clearEnabled s)

end Sys2Proof.Machine
end

