-- ==== Sys2Proof/Machine/LineEvent.lean ====
section
/-! DEFINITION. The meaning of LINE_EVENT (42_input_adapter.md R110 to R114). -/

namespace Sys2Proof.Machine

/-- LINE_EVENT (R110): on a line that exists, ACTIVE takes the level and the update engine runs, also when ACTIVE had
that value already (R111); on any other index the fault of R112. -/
def execLineEvent (index : Word) (level : Bool) (s : State) : Host.Outcome State Fault Refusal :=
  if inputLineValid s.lines.length index then .next (setLine index.toNat level s)
  else .fault (raiseInvalidInputLine index s)

end Sys2Proof.Machine
end

