-- ==== Sys2Proof/Machine/Dispatch.lean ====
section
/-! DEFINITION. One arm per constructor of Instr: the meaning of each operation of the block. -/

namespace Sys2Proof.Machine

def exec (i : Instr) (s : State) : Host.Outcome State Fault Refusal :=
  match i with
  | .readStatus size => Sys2Proof.Machine.execReadStatus size s
  | .readLine offset size => Sys2Proof.Machine.execReadLine offset size s
  | .readOverrun offset size => Sys2Proof.Machine.execReadOverrun offset size s
  | .readInvalid offset size => Sys2Proof.Machine.execReadInvalid offset size s
  | .writeStatus size value => Sys2Proof.Machine.execWriteStatus size value s
  | .writeLine offset size value => Sys2Proof.Machine.execWriteLine offset size value s
  | .writeInvalid offset size value => Sys2Proof.Machine.execWriteInvalid offset size value s
  | .lineEvent index level => Sys2Proof.Machine.execLineEvent index level s
  | .dbgSet index => Sys2Proof.Machine.execDbgSet index s
  | .dbgClear index => Sys2Proof.Machine.execDbgClear index s
  | .dbgEnable index => Sys2Proof.Machine.execDbgEnable index s
  | .dbgDisable index => Sys2Proof.Machine.execDbgDisable index s

end Sys2Proof.Machine
end

