-- ==== Sys2Proof/Machine/Step.lean ====
section
/-! DEFINITION. One step: the operation the host presents next, decoded and run (00_scope.md R8, 20_memory.md R51). -/

namespace Sys2Proof.Machine

/-- One step of the block. A block whose fault mark is set has none (10_state.md R27); with nothing presented the state
persists; a descriptor that spells no operation is refused (30_encoding.md R65); otherwise the operation runs, and the
run moves on to its next descriptor. -/
def step (s : State) : Host.Outcome State Fault Refusal :=
  if isHalted s then .fault (.halted s)
  else
    match fetch s with
    | none => idle s
    | some d =>
      match Sys2Proof.decode s.config d with
      | .refuse r => .refused (.descriptor r)
      | .instr i => advanceOutcome (exec i s)

/-- `s` with the descriptor of the low `nbits` bits of `w` placed where `step` fetches next: the host presents it as
its next operation. Nothing else changes. -/
def State.withFetchWord (s : State) (nbits w : Nat) : State := presentNext (tableDescriptor nbits w) s

end Sys2Proof.Machine
end

