-- ==== Sys2Proof/Machine/Run.lean ====
section
/-! DEFINITION. Runs: a finite list of descriptors applied in order from the reset state, the three ways a run ends, and
what is observed of it (70_reset_and_hazards.md R183; 92_eei_decisions.md D25). -/

namespace Sys2Proof.Machine

/-- The read responses of a trace, in order. -/
def readsOf : List Event → List Word
  | [] => []
  | .readData v :: es => v :: readsOf es
  | .drive _ :: es => readsOf es
  | .log _ :: es => readsOf es

/-- The drive trace. -/
def drivesOf : List Event → List Bool
  | [] => []
  | .readData _ :: es => drivesOf es
  | .drive b :: es => b :: drivesOf es
  | .log _ :: es => drivesOf es

/-- The diagnostic log events of a trace, in order. -/
def logsOf : List Event → List LogEntry
  | [] => []
  | .readData _ :: es => logsOf es
  | .drive _ :: es => logsOf es
  | .log e :: es => e :: logsOf es

/-- The observation of a run (R183). -/
structure Observation where
  status : StatusWord
  lines : List Byte
  irqOut : Bool
  reads : List Word
  drives : List Bool
deriving DecidableEq, Repr

/-- What is observed when a run ends in `s`. -/
def observe (s : State) : Observation :=
  { status := s.status, lines := s.lines, irqOut := s.irqOut, reads := readsOf s.trace, drives := drivesOf s.trace }

/-- The three ways a run ends (R183), each with the observation of the state it ends in. -/
inductive RunEnd where
  | clean (o : Observation)
  | faulted (mark : FaultMark) (o : Observation)
  | refused (why : Refusal) (o : Observation)
deriving DecidableEq, Repr

/-- The state in which a fault leaves the block. -/
def stoppedState : Fault → State
  | .invalidInputLine _ s => s
  | .halted s => s

/-- The end of `k` further steps from `s`. -/
def runFrom : Nat → State → RunEnd
  | 0, s => .clean (observe s)
  | k + 1, s =>
    match step s with
    | .next t => runFrom k t
    | .fault f => .faulted (stoppedState f).faultMark (observe (stoppedState f))
    | .refused r => .refused r (observe s)

/-- The end of the run of the descriptors `ds` by a block constructed with parameters `c` (R183). -/
def runEnd (c : Config) (ds : List Descriptor) : RunEnd :=
  runFrom ds.length (presentAll ds (State.ofConfig c))

/-- Operations executed one after another, each on the state the one before it left (20_memory.md R51). -/
def execAll : List Instr → State → Host.Outcome State Fault Refusal
  | [], s => .next s
  | i :: is, s =>
    match exec i s with
    | .next t => execAll is t
    | .fault f => .fault f
    | .refused r => .refused r

end Sys2Proof.Machine
end

