-- ==== Sys2Proof/Safety.lean ====
section
/-! DEFINITION. The terms in which claims about the block are stated: what one operation leaves alone, which operations
touch what (the access matrix of 10_state.md R31), the invariants, and when two states differ in reserved bits only. -/

namespace Sys2Proof.Machine

/-! ### What one operation leaves alone -/

/-- Everything that no operation writes on a completed step of its own: the parameters, the fault mark, the host's
sequence and the position in it. -/
def SameHost (s t : State) : Prop :=
  t.accessSizes = s.accessSizes ∧ t.faultMark = s.faultMark ∧ t.program = s.program ∧ t.position = s.position

/-- From `s` to `t` the only output is one drive event, of the aggregate of `t`'s registers, and the output line has
that level (41_update_engine.md R101, R102). -/
def DrivesOnce (s t : State) : Prop :=
  t.irqOut = aggregate t.status t.lines ∧ t.trace = s.trace ++ [.drive t.irqOut]

/-- From `s` to `t` line register `i` becomes `b`, and every other line register, and their number, stay. -/
def OnlyLine (i : Nat) (b : Byte) (s t : State) : Prop :=
  t.lines.length = s.lines.length ∧ t.lines[i]? = some b ∧ ∀ j, j ≠ i → t.lines[j]? = s.lines[j]?

/-! ### Which operation touches what (R31) -/

/-- The offset of a write that selects a line register of a block of `n` lines. -/
def lineOffset (n : Nat) (offset : Word) : Bool := decide (4 ≤ offset.toNat) && decide (offset.toNat < 4 + n)

/-- The column `status` of R31. -/
def writesStatus : Instr → Bool
  | .writeStatus _ _ => true
  | .writeLine offset _ _ => decide (offset.toNat = 0)
  | .writeInvalid offset _ _ => decide (offset.toNat = 0)
  | .readStatus _ | .readLine _ _ | .readOverrun _ _ | .readInvalid _ _ => false
  | .lineEvent _ _ | .dbgSet _ | .dbgClear _ | .dbgEnable _ | .dbgDisable _ => false

/-- The column `line[j]` bits 7:2 of R31, in a block of `n` lines. -/
def writesWholeLine (n : Nat) (j : Nat) : Instr → Bool
  | .writeLine offset _ _ => lineOffset n offset && decide (offset.toNat - 4 = j)
  | .writeInvalid offset _ _ => lineOffset n offset && decide (offset.toNat - 4 = j)
  | .writeStatus _ _ => false
  | .readStatus _ | .readLine _ _ | .readOverrun _ _ | .readInvalid _ _ => false
  | .lineEvent _ _ | .dbgSet _ | .dbgClear _ | .dbgEnable _ | .dbgDisable _ => false

/-- The column `line[j]` bit 0 (ACTIVE) of R31: the three paths of 42_input_adapter.md R113. -/
def writesActive (n : Nat) (j : Nat) : Instr → Bool
  | .lineEvent index _ => decide (index.toNat = j)
  | .dbgSet index => decide (index.toInt = j)
  | .dbgClear index => decide (index.toInt = j)
  | .writeLine offset size value => writesWholeLine n j (.writeLine offset size value)
  | .writeInvalid offset size value => writesWholeLine n j (.writeInvalid offset size value)
  | .writeStatus _ _ => false
  | .readStatus _ | .readLine _ _ | .readOverrun _ _ | .readInvalid _ _ => false
  | .dbgEnable _ | .dbgDisable _ => false

/-- The column `line[j]` bit 1 (ENABLED) of R31. -/
def writesEnabled (n : Nat) (j : Nat) : Instr → Bool
  | .dbgEnable index => decide (index.toInt = j)
  | .dbgDisable index => decide (index.toInt = j)
  | .writeLine offset size value => writesWholeLine n j (.writeLine offset size value)
  | .writeInvalid offset size value => writesWholeLine n j (.writeInvalid offset size value)
  | .writeStatus _ _ => false
  | .readStatus _ | .readLine _ _ | .readOverrun _ _ | .readInvalid _ _ => false
  | .lineEvent _ _ | .dbgSet _ | .dbgClear _ => false

/-- The column `Runs the update engine` of R31, and the two lists of 41_update_engine.md R103. -/
def runsUpdateEngine (n : Nat) : Instr → Bool
  | .writeStatus _ _ => true
  | .writeLine offset _ _ => decide (offset.toNat = 0) || lineOffset n offset
  | .writeInvalid offset _ _ => decide (offset.toNat = 0) || lineOffset n offset
  | .lineEvent index _ => decide (index.toNat < n)
  | .dbgSet index | .dbgClear index | .dbgEnable index | .dbgDisable index =>
      decide (0 ≤ index.toInt) && decide (index.toInt < n)
  | .readStatus _ | .readLine _ _ | .readOverrun _ _ | .readInvalid _ _ => false

/-- The log events of an access that is rejected or invalid (60_exceptions.md R143), in a block of `n` lines: for a read
one that selects neither the status word nor lines that all exist, for a write one that selects no register. -/
def logsBy (n : Nat) : Instr → List LogEntry
  | .readStatus _ => []
  | .readLine offset size | .readOverrun offset size | .readInvalid offset size =>
      if offset.toNat = 0 ∨ (4 ≤ offset.toNat ∧ (offset.toNat - 4) + size ≤ n ∧ offset.toNat < 4 + n) then []
      else [.invalidRead offset size]
  | .writeStatus _ _ => []
  | .writeLine offset size value | .writeInvalid offset size value =>
      if offset.toNat = 0 ∨ (4 ≤ offset.toNat ∧ offset.toNat < 4 + n) then []
      else [.invalidWrite offset size value]
  | .lineEvent _ _ => []
  | .dbgSet _ | .dbgClear _ | .dbgEnable _ | .dbgDisable _ => []

/-! ### Invariants -/

/-- The invariant of every state that a run reaches: an admitted configuration, the output line at the level of the
aggregate (10_state.md R25, 41_update_engine.md R105), no fault mark, and a position within the host's sequence. -/
def BlockInv (s : State) : Prop :=
  s.config.wf = true ∧ s.irqOut = aggregate s.status s.lines ∧ s.faultMark = .none ∧ s.position ≤ s.program.length

/-- The level that the trace leaves on the output line: that of the last drive, and deasserted before the first
(41_update_engine.md R102, 10_state.md R32). -/
def lastDriven (trace : List Event) : Bool := (drivesOf trace).getLast?.getD false

/-- A run that ends cleanly (70_reset_and_hazards.md R183). -/
def CleanRun (c : Config) (ds : List Descriptor) : Prop := ∃ o, runEnd c ds = .clean o

/-! ### States that differ in reserved bits only (30_encoding.md R69) -/

/-- The two states agree in everything but status bits 31:1, line bits 7:2, and the read data of their traces. -/
def SameControl (s t : State) : Prop :=
  s.accessSizes = t.accessSizes ∧ s.status.getLsbD 0 = t.status.getLsbD 0
    ∧ s.lines.map (fun b => b &&& 0x03#8) = t.lines.map (fun b => b &&& 0x03#8)
    ∧ s.irqOut = t.irqOut ∧ s.faultMark = t.faultMark ∧ drivesOf s.trace = drivesOf t.trace
    ∧ logsOf s.trace = logsOf t.trace ∧ (readsOf s.trace).length = (readsOf t.trace).length
    ∧ s.program = t.program ∧ s.position = t.position

/-- The same fault, raised in states that agree so. -/
def SameFault : Fault → Fault → Prop
  | .invalidInputLine i s, .invalidInputLine j t => i = j ∧ SameControl s t
  | .halted s, .halted t => SameControl s t
  | .invalidInputLine _ _, .halted _ => False
  | .halted _, .invalidInputLine _ _ => False

/-- The same kind of outcome, with states that agree so. -/
def SameOutcome : Host.Outcome State Fault Refusal → Host.Outcome State Fault Refusal → Prop
  | .next s, .next t => SameControl s t
  | .fault f, .fault g => SameFault f g
  | .refused q, .refused r => q = r
  | .next _, .fault _ => False
  | .next _, .refused _ => False
  | .fault _, .next _ => False
  | .fault _, .refused _ => False
  | .refused _, .next _ => False
  | .refused _, .fault _ => False

/-! ### The trace as seen from outside -/

/-- `s` with `pre` recorded before its own trace. -/
def afterTrace (pre : List Event) (s : State) : State := { s with trace := pre ++ s.trace }

/-- The same on a fault's stopped state. -/
def afterTraceFault (pre : List Event) : Fault → Fault
  | .invalidInputLine i s => .invalidInputLine i (afterTrace pre s)
  | .halted s => .halted (afterTrace pre s)

/-- The same on an outcome. -/
def afterTraceOutcome (pre : List Event) : Host.Outcome State Fault Refusal → Host.Outcome State Fault Refusal
  | .next s => .next (afterTrace pre s)
  | .fault f => .fault (afterTraceFault pre f)
  | .refused r => .refused r

/-! ### Software's way back to the reset values (70_reset_and_hazards.md R171) -/

/-- A write of 0 to the status word and to each of `n` line registers. -/
def zeroWrites (n : Nat) : List Instr :=
  .writeStatus 4 0#64 :: (List.range n).map (fun i => .writeLine (BitVec.ofNat 64 (4 + i)) 1 0#64)

end Sys2Proof.Machine
end

