-- ==== Sys2Proof/Certificates/Slice0/Obligations.lean ====
section
/-! DEFINITION. The statements for the provers. Each docstring names the rules of spec/ it formalises; OBLIGATIONS.json
lists them. -/

open Sys2Proof Sys2Proof.Machine

/-! ### Descriptors (30_encoding.md) -/

/-- R61 to R66: the decoder reads back every well-formed operation from its descriptor, with every operand. -/
def Obligations.DecodeOfEncodeIsIdentity : Prop :=
  ∀ (c : Config) (i : Instr), i.wf c = true → decode c (encode i) = .instr i

/-- R61 to R66: a descriptor that is decoded is the encoding of what was decoded, which is well-formed; so no two
descriptors spell one operation, and no bit is dropped. -/
def Obligations.EncodeOfDecodeIsIdentity : Prop :=
  ∀ (c : Config) (d : Descriptor) (i : Instr), decode c d = .instr i → encode i = d ∧ i.wf c = true

/-- R65: a descriptor is refused exactly on one of the six grounds; when it is presented the run is refused there, with
no next state; and what is not refused is an operation to which `exec` gives a meaning, never a refusal. -/
def Obligations.DescriptorRefusedExactlyOnSixGrounds : Prop :=
  (∀ (c : Config) (d : Descriptor),
    (∃ r, decode c d = .refuse r) ↔
      ((d.extractLsb' 0 4 = 0x0#4 ∨ 0x8#4 ≤ d.extractLsb' 0 4)
      ∨ d.extractLsb' 9 7 ≠ 0#7
      ∨ ((d.extractLsb' 0 4 = 0x1#4 ∨ d.extractLsb' 0 4 = 0x2#4) ∧ (d.extractLsb' 4 4).toNat ∉ c.accessSizes)
      ∨ (¬(d.extractLsb' 0 4 = 0x1#4 ∨ d.extractLsb' 0 4 = 0x2#4) ∧ d.extractLsb' 4 4 ≠ 0#4)
      ∨ (d.extractLsb' 0 4 ≠ 0x3#4 ∧ d.extractLsb' 8 1 ≠ 0#1)
      ∨ (d.extractLsb' 0 4 ≠ 0x2#4 ∧ d.extractLsb' 80 64 ≠ 0#64)))
  ∧ (∀ (s : State) (d : Descriptor) (r : DescriptorRefusal),
      s.faultMark = .none → s.program[s.position]? = some d → decode s.config d = .refuse r →
        step s = .refused (.descriptor r))
  ∧ (∀ (s : State) (d : Descriptor) (i : Instr),
      decode s.config d = .instr i → ∀ q, exec i s ≠ .refused q)

/-- R63: an admitted descriptor's header matches its operation's pattern under the mask, and no other operation's. -/
def Obligations.HeaderPatternSelectsOneOperation : Prop :=
  ∀ (c : Config) (d : Descriptor) (i : Instr), decode c d = .instr i →
    ∀ op : OpCode, (d.extractLsb' 0 16 &&& headerMask op = headerMatch op) ↔ op = i.opCode

/-- Words written out from R61, R63 and R72 (most of them in 95_test_vectors.md §2.1 and §3) decode to their operations
in a block of four lines. -/
def Obligations.WrittenOutWordsDecode : Prop :=
  let c : Config := { numIrqs := 4, accessSizes := [1, 2, 4, 8] }
  decode c (descriptorOf 0x0011#16 0#64 0#64) = .instr (.readStatus 1)
  ∧ decode c (descriptorOf 0x0021#16 5#64 0#64) = .instr (.readLine 5#64 2)
  ∧ decode c (descriptorOf 0x0041#16 6#64 0#64) = .instr (.readOverrun 6#64 4)
  ∧ decode c (descriptorOf 0x0011#16 2#64 0#64) = .instr (.readInvalid 2#64 1)
  ∧ decode c (descriptorOf 0x0042#16 0#64 1#64) = .instr (.writeStatus 4 1#64)
  ∧ decode c (descriptorOf 0x0012#16 5#64 3#64) = .instr (.writeLine 5#64 1 3#64)
  ∧ decode c (descriptorOf 0x0012#16 1#64 0xFF#64) = .instr (.writeInvalid 1#64 1 0xFF#64)
  ∧ decode c (descriptorOf 0x0103#16 3#64 0#64) = .instr (.lineEvent 3#64 true)
  ∧ decode c (descriptorOf 0x0004#16 100#64 0#64) = .instr (.dbgSet 100#64)
  ∧ decode c (descriptorOf 0x0005#16 1#64 0#64) = .instr (.dbgClear 1#64)
  ∧ decode c (descriptorOf 0x0006#16 2#64 0#64) = .instr (.dbgEnable 2#64)
  ∧ decode c (descriptorOf 0x0007#16 0xFFFFFFFFFFFFFFFE#64 0#64) = .instr (.dbgDisable 0xFFFFFFFFFFFFFFFE#64)
  ∧ decode c (descriptorOf 0x0031#16 4#64 0#64) = .refuse .sizeNotAdmitted
  ∧ decode c (descriptorOf 0x0203#16 0#64 0#64) = .refuse .reservedBits

/-! ### Steps (00_scope.md, 20_memory.md, 10_state.md) -/

/-- 00_scope.md R8, 20_memory.md R51, 92_eei_decisions.md D19: a step of a block without fault mark is `exec` of the
operation that the descriptor presented spells; after a completed operation the position in the host's sequence is one
further. -/
def Obligations.StepRunsTheDecodedOperation : Prop :=
  ∀ (s : State) (d : Descriptor) (i : Instr),
    s.faultMark = .none → s.program[s.position]? = some d → decode s.config d = .instr i →
    (∀ t, exec i s = .next t → step s = .next { t with position := t.position + 1 })
    ∧ (∀ f, exec i s = .fault f → step s = .fault f)

/-- THE MODEL'S CHOICE (log entry 2; 60_exceptions.md R157 says that the state persists between operations): with
nothing presented a step leaves the state as it is. -/
def Obligations.NothingPresentedLeavesTheState : Prop :=
  ∀ s : State, s.faultMark = .none → s.program.length ≤ s.position → step s = .next s

/-- 10_state.md R27: the fault mark is none at reset; no completed operation changes it; the only operation that sets
it is a LINE_EVENT on a line that does not exist; and when it is set the block has no further step. THE MODEL'S reading
(log entry 3, DEDUCED): the fault carries the stopped state, and "no further step" is the answer of the fault `halted`,
which R27 does not name. -/
def Obligations.FaultMarkSetOnlyByInvalidLineEvent : Prop :=
  (∀ c : Config, (State.ofConfig c).faultMark = .none)
  ∧ (∀ (i : Instr) (s t : State), exec i s = .next t → t.faultMark = s.faultMark)
  ∧ (∀ (i : Instr) (s : State) (f : Fault), exec i s = .fault f ↔
      ∃ index level, i = .lineEvent index level ∧ s.lines.length ≤ index.toNat
        ∧ f = .invalidInputLine index { s with faultMark := .invalidInputLine index })
  ∧ (∀ s : State, s.faultMark ≠ .none → step s = .fault (.halted s))

/-! ### Reset (10_state.md R32, 70_reset_and_hazards.md R170) -/

/-- R32: the values after construction, for every number of lines; `N` is the construction argument, default 64. -/
def Obligations.ConstructionZeroesEveryRegister : Prop :=
  (∀ c : Config, c.wf = true → ∃ s, construct c = .next s
    ∧ s.status = 0x00000000#32 ∧ s.lines.length = c.numIrqs ∧ (∀ j, j < c.numIrqs → s.lines[j]? = some 0x00#8)
    ∧ s.irqOut = false ∧ s.faultMark = .none ∧ s.trace = [])
  ∧ construct Config.standard = .next State.reset ∧ State.reset.lines.length = 64

/-- 92_eei_decisions.md D8 (a decision of the spec, for 00_scope.md R7) and 20_memory.md R46: construction is admitted
exactly for `N >= 1` with `N + 4 <= 2^64` and sizes of 1 to 8 bytes, and refused as a configuration otherwise, `N = 0`
among them. That a size of 0 is not admitted is THE MODEL'S CHOICE (log entry 6). -/
def Obligations.ConstructionAdmitsExactlyLegalParameters : Prop :=
  ∀ c : Config,
    ((∃ s, construct c = .next s) ↔
      1 ≤ c.numIrqs ∧ c.numIrqs + 4 ≤ 2 ^ 64 ∧ ∀ z ∈ c.accessSizes, 1 ≤ z ∧ z ≤ 8)
    ∧ ((¬ ∃ s, construct c = .next s) → construct c = .refused .configuration)

/-! ### The update engine (41_update_engine.md) -/

/-- R100: the aggregate is true exactly when status bit 0 is set and some line has bits 0 and 1 both set. -/
def Obligations.AggregateIsGatedOrOfEffectiveLines : Prop :=
  ∀ (status : StatusWord) (lines : List Byte),
    aggregate status lines = true ↔
      status.getLsbD 0 = true ∧
        ∃ (j : Nat) (b : Byte), lines[j]? = some b ∧ b.getLsbD 0 = true ∧ b.getLsbD 1 = true

/-- R103: each operation that completes drives the output exactly once, at the level of the aggregate of the registers
it leaves, if it is one of those that run the update engine, and otherwise not at all; a faulting LINE_EVENT and
construction drive nothing. -/
def Obligations.UpdateEngineRunsExactlyOnce : Prop :=
  (∀ (i : Instr) (s t : State), exec i s = .next t →
    drivesOf t.trace = drivesOf s.trace ++
      (if runsUpdateEngine s.lines.length i = true then [aggregate t.status t.lines] else []))
  ∧ (∀ (i : Instr) (s : State) (f : Fault), exec i s = .fault f →
      drivesOf (stoppedState f).trace = drivesOf s.trace)
  ∧ (∀ c : Config, drivesOf (State.ofConfig c).trace = [])

/-- R104: with the global enable clear, every run of the update engine drives false, however many lines are
effective. -/
def Obligations.GlobalDisableAlwaysDeasserts : Prop :=
  ∀ (i : Instr) (s t : State), exec i s = .next t → runsUpdateEngine s.lines.length i = true →
    t.status.getLsbD 0 = false → t.irqOut = false ∧ t.trace = s.trace ++ [.drive false]

/-- R105, which the spec marks as derived from R101, R103 and R32, as an invariant of one step, from every state, reached
or not. -/
def Obligations.StepKeepsOutputEqualToAggregate : Prop :=
  ∀ s t : State, s.irqOut = aggregate s.status s.lines → step s = .next t →
    t.irqOut = aggregate t.status t.lines

/-- R105, which the spec marks as derived: after any number of operations of any sequence, from construction on, also where the run stops at a fault,
the level on the output line is the aggregate of the registers. -/
def Obligations.OutputIsAggregateOnEveryRun : Prop :=
  ∀ (c : Config) (ds : List Descriptor) (k : Nat),
    (∀ t : State, Host.Core.run Sys2Proof.core k (presentAll ds (State.ofConfig c)) = .next t →
      t.irqOut = aggregate t.status t.lines)
    ∧ (∀ f : Fault, Host.Core.run Sys2Proof.core k (presentAll ds (State.ofConfig c)) = .fault f →
      (stoppedState f).irqOut = aggregate (stoppedState f).status (stoppedState f).lines)

/-- 00_scope.md R9, 41_update_engine.md R102: the output line holds the level of the last drive event. -/
def Obligations.StepKeepsOutputEqualToLastDrive : Prop :=
  ∀ s t : State, s.irqOut = lastDriven s.trace → step s = .next t → t.irqOut = lastDriven t.trace

/-- The whole invariant is kept by every step: the admitted configuration and the output at the level of the aggregate
(R24, R105), no fault mark (R27), and the model's own position within the host's sequence (log entry 1). -/
def Obligations.StepKeepsInvariant : Prop :=
  ∀ s t : State, BlockInv s → step s = .next t → BlockInv t

/-- The invariants hold after reset, and after construction with any admitted parameters. -/
def Obligations.ResetMeetsInvariants : Prop :=
  BlockInv State.reset ∧ State.reset.irqOut = lastDriven State.reset.trace ∧ ∀ c : Config, c.wf = true → BlockInv (State.ofConfig c)

/-- 10_state.md R24, 00_scope.md R7: the number of lines, the admitted sizes and the host's sequence are constant, and
the position never goes back. -/
def Obligations.StepKeepsConfiguration : Prop :=
  ∀ s t : State, step s = .next t →
    t.lines.length = s.lines.length ∧ t.accessSizes = s.accessSizes ∧ t.program = s.program
      ∧ s.position ≤ t.position ∧ t.position ≤ s.position + 1

/-! ### The register port (40_register_access.md) -/

/-- R81: BUS_READ.STATUS, its descriptor and its effect: the whole status word, zero-extended, whatever the size. -/
def Obligations.ReadStatusReturnsWholeWord : Prop :=
  ∀ (s : State) (size : Nat),
    (size < 16 → encode (.readStatus size) = descriptorOf (0x0001#16 ||| BitVec.ofNat 16 (16 * size)) 0#64 0#64)
    ∧ exec (.readStatus size) s = .next { s with trace := s.trace ++ [.readData (s.status.setWidth 64)] }

/-- R82: BUS_READ.LINE, its descriptor and its effect: byte `i` of the response is line register `first + i`, and the
bytes from `size` up are 0. -/
def Obligations.ReadLinePacksLittleEndian : Prop :=
  ∀ (s : State) (offset : Word) (size : Nat),
    4 ≤ offset.toNat → offset.toNat < 4 + s.lines.length → (offset.toNat - 4) + size ≤ s.lines.length →
    (size < 16 → encode (.readLine offset size) = descriptorOf (0x0001#16 ||| BitVec.ofNat 16 (16 * size)) offset 0#64)
    ∧ ∃ v : Word, exec (.readLine offset size) s = .next { s with trace := s.trace ++ [.readData v] }
      ∧ (∀ (k : Nat) (b : Byte), k < 8 → k < size → s.lines[(offset.toNat - 4) + k]? = some b →
          v.extractLsb' (8 * k) 8 = b)
      ∧ ∀ k : Nat, k < 8 → size ≤ k → v.extractLsb' (8 * k) 8 = 0#8

/-- R83: BUS_READ.OVERRUN, its descriptor and its effect: a log event and a response of 0, and nothing else. -/
def Obligations.ReadOverrunReturnsZero : Prop :=
  ∀ (s : State) (offset : Word) (size : Nat),
    4 ≤ offset.toNat → offset.toNat < 4 + s.lines.length → s.lines.length < (offset.toNat - 4) + size →
    (size < 16 → encode (.readOverrun offset size) = descriptorOf (0x0001#16 ||| BitVec.ofNat 16 (16 * size)) offset 0#64)
    ∧ exec (.readOverrun offset size) s =
        .next { s with trace := s.trace ++ [.log (.invalidRead offset size), .readData 0#64] }

/-- R84: BUS_READ.INVALID, its descriptor and its effect: a log event and a response of 0, and nothing else. -/
def Obligations.ReadInvalidReturnsZero : Prop :=
  ∀ (s : State) (offset : Word) (size : Nat),
    (offset = 1#64 ∨ offset = 2#64 ∨ offset = 3#64 ∨ 4 + s.lines.length ≤ offset.toNat) →
    (size < 16 → encode (.readInvalid offset size) = descriptorOf (0x0001#16 ||| BitVec.ofNat 16 (16 * size)) offset 0#64)
    ∧ exec (.readInvalid offset size) s =
        .next { s with trace := s.trace ++ [.log (.invalidRead offset size), .readData 0#64] }

/-- R86: BUS_WRITE.STATUS, its descriptor and its effect: all 32 bits replaced by the low half of the data, whatever the
size, then one drive; no line register changes. -/
def Obligations.WriteStatusReplacesWholeWord : Prop :=
  ∀ (s : State) (size : Nat) (value : Word),
    (size < 16 → encode (.writeStatus size value) = descriptorOf (0x0002#16 ||| BitVec.ofNat 16 (16 * size)) 0#64 value)
    ∧ ∃ t, exec (.writeStatus size value) s = .next t
      ∧ t.status = value.setWidth 32 ∧ t.lines = s.lines ∧ DrivesOnce s t ∧ SameHost s t

/-- R87: BUS_WRITE.LINE, its descriptor and its effect: exactly the addressed line register takes the low byte of the
data, whatever the size, then one drive. -/
def Obligations.WriteLineWritesExactlyOneByte : Prop :=
  ∀ (s : State) (offset : Word) (size : Nat) (value : Word),
    4 ≤ offset.toNat → offset.toNat < 4 + s.lines.length →
    (size < 16 → encode (.writeLine offset size value) = descriptorOf (0x0002#16 ||| BitVec.ofNat 16 (16 * size)) offset value)
    ∧ ∃ t, exec (.writeLine offset size value) s = .next t
      ∧ OnlyLine (offset.toNat - 4) (value.setWidth 8) s t ∧ t.status = s.status ∧ DrivesOnce s t ∧ SameHost s t

/-- R88: BUS_WRITE.INVALID, its descriptor and its effect: a log event and nothing else; nothing is driven. -/
def Obligations.WriteInvalidOnlyLogs : Prop :=
  ∀ (s : State) (offset : Word) (size : Nat) (value : Word),
    (offset = 1#64 ∨ offset = 2#64 ∨ offset = 3#64 ∨ 4 + s.lines.length ≤ offset.toNat) →
    (size < 16 → encode (.writeInvalid offset size value) = descriptorOf (0x0002#16 ||| BitVec.ofNat 16 (16 * size)) offset value)
    ∧ exec (.writeInvalid offset size value) s =
        .next { s with trace := s.trace ++ [.log (.invalidWrite offset size value)] }

/-- R49, R89: whatever its operands, a bus read completes, gives one response, drives nothing, and changes nothing but
the trace. -/
def Obligations.BusReadsChangeNoState : Prop :=
  ∀ (i : Instr) (s : State), i.opCode = .busRead →
    ∃ (v : Word) (es : List Event),
      exec i s = .next { s with trace := s.trace ++ es ++ [.readData v] } ∧ drivesOf es = [] ∧ readsOf es = []

/-- 60_exceptions.md R141: every bus access completes with its response, read data for a read and nothing for a write,
and none is refused; a fault comes only from the line input. -/
def Obligations.BusAccessesAlwaysComplete : Prop :=
  (∀ (i : Instr) (s : State), i.opCode = .busRead →
    ∃ t v, exec i s = .next t ∧ readsOf t.trace = readsOf s.trace ++ [v])
  ∧ (∀ (i : Instr) (s : State), i.opCode = .busWrite →
    ∃ t, exec i s = .next t ∧ readsOf t.trace = readsOf s.trace)
  ∧ (∀ (i : Instr) (s : State) (f : Fault), exec i s = .fault f → i.opCode = .lineEvent)

/-- 60_exceptions.md R143: the log events of each operation are exactly those of the three cases; and no operation reads
one: with a log event before the trace, an operation has the same outcome, but for that event. -/
def Obligations.LogEventsExactlyForInvalidAccesses : Prop :=
  (∀ (i : Instr) (s t : State), exec i s = .next t →
    logsOf t.trace = logsOf s.trace ++ logsBy s.lines.length i)
  ∧ (∀ (i : Instr) (s : State) (f : Fault), exec i s = .fault f → logsOf (stoppedState f).trace = logsOf s.trace)
  ∧ (∀ (i : Instr) (s : State) (e : LogEntry),
      exec i (afterTrace [.log e] s) = afterTraceOutcome [.log e] (exec i s))

/-- 10_state.md R28: no rule of the block reads the outputs recorded: with any events before the trace, a step has the
same outcome, but for those events. -/
def Obligations.RecordedOutputsAreNeverRead : Prop :=
  ∀ (pre : List Event) (s : State), step (afterTrace pre s) = afterTraceOutcome pre (step s)

/-- 20_memory.md R50, which the spec marks as derived: a read that follows a read returns the same data; and a write repeated at the same valid offset
leaves the same state, but for one more drive event of the same level. -/
def Obligations.RepeatedAccessesAreIdempotent : Prop :=
  (∀ (i : Instr) (s : State), i.opCode = .busRead →
    ∃ t u v, exec i s = .next t ∧ exec i t = .next u
      ∧ readsOf t.trace = readsOf s.trace ++ [v] ∧ readsOf u.trace = readsOf t.trace ++ [v])
  ∧ (∀ (i : Instr) (s : State), i.opCode = .busWrite → runsUpdateEngine s.lines.length i = true →
    ∃ t, exec i s = .next t ∧ exec i t = .next { t with trace := t.trace ++ [.drive t.irqOut] })

/-- 70_reset_and_hazards.md R175, R87 and R82, 90_conflicts.md C6: a line read right after a line write at the same
offset returns the byte written in its low byte, and the line registers above it as they were before the write. -/
def Obligations.LineReadAfterWriteReturnsWrittenByte : Prop :=
  ∀ (s : State) (offset : Word) (wsize rsize : Nat) (value : Word),
    4 ≤ offset.toNat → offset.toNat < 4 + s.lines.length → 1 ≤ rsize →
    (offset.toNat - 4) + rsize ≤ s.lines.length →
    ∃ t v, exec (.writeLine offset wsize value) s = .next t
      ∧ exec (.readLine offset rsize) t = .next { t with trace := t.trace ++ [.readData v] }
      ∧ v.extractLsb' 0 8 = value.extractLsb' 0 8
      ∧ ∀ (k : Nat) (b : Byte), 1 ≤ k → k < rsize → k < 8 → s.lines[(offset.toNat - 4) + k]? = some b →
          v.extractLsb' (8 * k) 8 = b

/-- 70_reset_and_hazards.md R171: writing 0 to the status word and to every line register brings the registers back to
their reset values, from any state of a block that the offsets can reach. -/
def Obligations.ZeroWritesRestoreResetRegisters : Prop :=
  ∀ s : State, s.lines.length + 4 ≤ 2 ^ 64 →
    ∃ t, execAll (zeroWrites s.lines.length) s = .next t
      ∧ t.status = 0#32 ∧ t.lines = List.replicate s.lines.length 0#8 ∧ t.irqOut = false ∧ SameHost s t

/-- 92_eei_decisions.md D6: what a requester sees, for both values of the host parameter. -/
def Obligations.RequesterSeesTruncatedOrWholeData : Prop :=
  ∀ (size : Nat) (rdata : Word),
    requesterData false size rdata = rdata
    ∧ ∀ k, (requesterData true size rdata).getLsbD k = (decide (k < 8 * size) && rdata.getLsbD k)

/-! ### The line input (42_input_adapter.md) -/

/-- R110: LINE_EVENT on a line that exists: its descriptor, ACTIVE takes the level, then one drive. With R111: also when
ACTIVE had that value already. -/
def Obligations.LineEventWritesActive : Prop :=
  ∀ (s : State) (index : Word) (level : Bool),
    (encode (.lineEvent index level) = descriptorOf (if level then 0x0103#16 else 0x0003#16) index 0#64)
    ∧ (∀ b, s.lines[index.toNat]? = some b →
        ∃ t, exec (.lineEvent index level) s = .next t
          ∧ OnlyLine index.toNat (if level then b ||| 0x01#8 else b &&& 0xFE#8) s t
          ∧ t.status = s.status ∧ DrivesOnce s t ∧ SameHost s t)
    ∧ (s.lines.length ≤ index.toNat →
        exec (.lineEvent index level) s = .fault (.invalidInputLine index { s with faultMark := .invalidInputLine index }))

/-- R112: a LINE_EVENT with `index >= N` faults; the stopped state has the fault mark set and is otherwise the state
before, so no register changed and nothing was driven; and that state has no further step. -/
def Obligations.InvalidLineEventFaultsForGood : Prop :=
  ∀ (s : State) (index : Word) (level : Bool), s.lines.length ≤ index.toNat →
    exec (.lineEvent index level) s = .fault (.invalidInputLine index { s with faultMark := .invalidInputLine index })
    ∧ ∀ u, step { s with faultMark := .invalidInputLine index } ≠ .next u

/-- R114: an event on line `i` changes no bit of any line register but `line[i][0]`, and not the status word; the output
only through the update engine. -/
def Obligations.LineEventTouchesOnlyItsActiveBit : Prop :=
  ∀ (s t : State) (index : Word) (level : Bool), exec (.lineEvent index level) s = .next t →
    t.status = s.status ∧ t.lines.length = s.lines.length ∧ DrivesOnce s t ∧ SameHost s t
    ∧ ∀ (j k : Nat) (b b' : Byte), s.lines[j]? = some b → t.lines[j]? = some b' →
        (j ≠ index.toNat ∨ k ≠ 0) → b'.getLsbD k = b.getLsbD k

/-- R113, which the spec marks as derived: ACTIVE is a stored bit: over any steps whose operations are none of the three paths that write `line[j][0]`,
it keeps its value. -/
def Obligations.ActiveBitPersistsUnlessWritten : Prop :=
  ∀ (k : Nat) (s t : State) (j : Nat) (b b' : Byte),
    Host.Core.run Sys2Proof.core k s = .next t →
    (∀ (p : Nat) (d : Descriptor) (i : Instr), s.position ≤ p → p < s.position + k → s.program[p]? = some d →
      decode s.config d = .instr i → writesActive s.lines.length j i = false) →
    s.lines[j]? = some b → t.lines[j]? = some b' → b'.getLsbD 0 = b.getLsbD 0

/-- R126, R113: a later LINE_EVENT on the same line overwrites what DBG_SET or DBG_CLEAR left in ACTIVE: the registers
and the output are those of the event alone. -/
def Obligations.LineEventOverwritesDebugActive : Prop :=
  ∀ (s : State) (index : Word) (level : Bool) (i : Instr),
    index.toNat < s.lines.length → index.toNat < 2 ^ 63 → (i = .dbgSet index ∨ i = .dbgClear index) →
    ∃ t u w, exec i s = .next t ∧ exec (.lineEvent index level) t = .next u
      ∧ exec (.lineEvent index level) s = .next w
      ∧ u.lines = w.lines ∧ u.status = w.status ∧ u.irqOut = w.irqOut

/-! ### The debug-control port (43_debug_control.md) -/

/-- R120: with an index that is negative or not below `N`, none of the four operations changes, drives, logs or
returns anything. -/
def Obligations.InvalidDebugIndexIsSilentNoOp : Prop :=
  ∀ (s : State) (index : Word), (index.toInt < 0 ∨ (s.lines.length : Int) ≤ index.toInt) →
    exec (.dbgSet index) s = .next s ∧ exec (.dbgClear index) s = .next s
    ∧ exec (.dbgEnable index) s = .next s ∧ exec (.dbgDisable index) s = .next s

/-- R121: DBG_SET, its descriptor and its effect on a valid and on an invalid index. -/
def Obligations.DebugSetSetsActive : Prop :=
  ∀ (s : State) (index : Word),
    encode (.dbgSet index) = descriptorOf 0x0004#16 index 0#64
    ∧ (∀ (j : Nat) (b : Byte), index.toInt = j → s.lines[j]? = some b →
        ∃ t, exec (.dbgSet index) s = .next t ∧ OnlyLine j (b ||| 0x01#8) s t
          ∧ t.status = s.status ∧ DrivesOnce s t ∧ SameHost s t)
    ∧ ((index.toInt < 0 ∨ (s.lines.length : Int) ≤ index.toInt) → exec (.dbgSet index) s = .next s)

/-- R122: DBG_CLEAR, its descriptor and its effect on a valid and on an invalid index. -/
def Obligations.DebugClearClearsActive : Prop :=
  ∀ (s : State) (index : Word),
    encode (.dbgClear index) = descriptorOf 0x0005#16 index 0#64
    ∧ (∀ (j : Nat) (b : Byte), index.toInt = j → s.lines[j]? = some b →
        ∃ t, exec (.dbgClear index) s = .next t ∧ OnlyLine j (b &&& 0xFE#8) s t
          ∧ t.status = s.status ∧ DrivesOnce s t ∧ SameHost s t)
    ∧ ((index.toInt < 0 ∨ (s.lines.length : Int) ≤ index.toInt) → exec (.dbgClear index) s = .next s)

/-- R123: DBG_ENABLE, its descriptor and its effect on a valid and on an invalid index. -/
def Obligations.DebugEnableSetsEnabled : Prop :=
  ∀ (s : State) (index : Word),
    encode (.dbgEnable index) = descriptorOf 0x0006#16 index 0#64
    ∧ (∀ (j : Nat) (b : Byte), index.toInt = j → s.lines[j]? = some b →
        ∃ t, exec (.dbgEnable index) s = .next t ∧ OnlyLine j (b ||| 0x02#8) s t
          ∧ t.status = s.status ∧ DrivesOnce s t ∧ SameHost s t)
    ∧ ((index.toInt < 0 ∨ (s.lines.length : Int) ≤ index.toInt) → exec (.dbgEnable index) s = .next s)

/-- R124: DBG_DISABLE, its descriptor and its effect on a valid and on an invalid index. -/
def Obligations.DebugDisableClearsEnabled : Prop :=
  ∀ (s : State) (index : Word),
    encode (.dbgDisable index) = descriptorOf 0x0007#16 index 0#64
    ∧ (∀ (j : Nat) (b : Byte), index.toInt = j → s.lines[j]? = some b →
        ∃ t, exec (.dbgDisable index) s = .next t ∧ OnlyLine j (b &&& 0xFD#8) s t
          ∧ t.status = s.status ∧ DrivesOnce s t ∧ SameHost s t)
    ∧ ((index.toInt < 0 ∨ (s.lines.length : Int) ≤ index.toInt) → exec (.dbgDisable index) s = .next s)

/-- R127, 90_conflicts.md C5: DBG_SET and DBG_CLEAR touch only bit 0, DBG_ENABLE and DBG_DISABLE only bit 1; so set and
clear in a row leave every bit but ACTIVE as it was (and ACTIVE clear), enable and disable in a row every bit but
ENABLED (and ENABLED clear). -/
def Obligations.DebugPairsTouchOnlyTheirBit : Prop :=
  ∀ (s : State) (index : Word) (j : Nat) (b : Byte), index.toInt = j → s.lines[j]? = some b →
    (∀ i, i = .dbgSet index ∨ i = .dbgClear index →
      ∃ t b', exec i s = .next t ∧ OnlyLine j b' s t ∧ t.status = s.status ∧ ∀ k, k ≠ 0 → b'.getLsbD k = b.getLsbD k)
    ∧ (∀ i, i = .dbgEnable index ∨ i = .dbgDisable index →
      ∃ t b', exec i s = .next t ∧ OnlyLine j b' s t ∧ t.status = s.status ∧ ∀ k, k ≠ 1 → b'.getLsbD k = b.getLsbD k)
    ∧ (∃ t u b', exec (.dbgSet index) s = .next t ∧ exec (.dbgClear index) t = .next u ∧ OnlyLine j b' s u
      ∧ b'.getLsbD 0 = false ∧ ∀ k, k ≠ 0 → b'.getLsbD k = b.getLsbD k)
    ∧ (∃ t u b', exec (.dbgEnable index) s = .next t ∧ exec (.dbgDisable index) t = .next u ∧ OnlyLine j b' s u
      ∧ b'.getLsbD 1 = false ∧ ∀ k, k ≠ 1 → b'.getLsbD k = b.getLsbD k)

/-! ### Rules about the whole machine -/

/-- 10_state.md R31, which the spec marks as derived: the write columns of the access matrix: an operation leaves every field that its row does not
write. -/
def Obligations.OperationsWriteOnlyTheirColumns : Prop :=
  ∀ (i : Instr) (s t : State), exec i s = .next t →
    (writesStatus i = false → t.status = s.status)
    ∧ t.lines.length = s.lines.length
    ∧ ∀ (j : Nat) (b b' : Byte), s.lines[j]? = some b → t.lines[j]? = some b' →
        (writesActive s.lines.length j i = false → b'.getLsbD 0 = b.getLsbD 0)
        ∧ (writesEnabled s.lines.length j i = false → b'.getLsbD 1 = b.getLsbD 1)
        ∧ (writesWholeLine s.lines.length j i = false → ∀ k, 2 ≤ k → b'.getLsbD k = b.getLsbD k)

/-- 30_encoding.md R69: two states that differ in status bits 31:1 and line bits 7:2 only take the same step: the same
outcome, drives and log events, and states that again differ so only; and no write of any value is trapped. -/
def Obligations.ReservedBitsNeverMatter : Prop :=
  (∀ s t : State, SameControl s t → SameOutcome (step s) (step t))
  ∧ (∀ (i : Instr) (s : State), i.opCode = .busWrite → ∃ t, exec i s = .next t)

/-- 70_reset_and_hazards.md R173, which the spec marks as derived: setting the global enable and enabling a line may be done in either order: the
registers and the output come out the same, and the line then asserts the output if it is ACTIVE. -/
def Obligations.EnableOrderDoesNotMatter : Prop :=
  ∀ (s : State) (index : Word) (j : Nat) (b : Byte) (size : Nat) (value : Word),
    index.toInt = j → s.lines[j]? = some b → value.getLsbD 0 = true →
    ∃ t u v w, exec (.dbgEnable index) s = .next t ∧ exec (.writeStatus size value) t = .next u
      ∧ exec (.writeStatus size value) s = .next v ∧ exec (.dbgEnable index) v = .next w
      ∧ u.status = w.status ∧ u.lines = w.lines ∧ u.irqOut = w.irqOut
      ∧ (b.getLsbD 0 = true → u.irqOut = true)

/-- 70_reset_and_hazards.md R183: a run ends cleanly exactly when every descriptor spells an operation and no LINE_EVENT
names a line that does not exist. -/
def Obligations.RunIsCleanExactlyWhenAllAdmitted : Prop :=
  ∀ (c : Config) (ds : List Descriptor),
    CleanRun c ds ↔ ∀ d ∈ ds, ∃ i, decode c d = .instr i ∧
      ∀ index level, i = .lineEvent index level → index.toNat < c.numIrqs

/-- 70_reset_and_hazards.md R183: a run that faults or is refused ends there: no later descriptor is applied, so further
descriptors change neither its end nor its observation. -/
def Obligations.StoppedRunIgnoresLaterDescriptors : Prop :=
  ∀ (c : Config) (ds more : List Descriptor),
    (∀ m o, runEnd c ds = .faulted m o → runEnd c (ds ++ more) = .faulted m o)
    ∧ (∀ r o, runEnd c ds = .refused r o → runEnd c (ds ++ more) = .refused r o)
end

