-- ==== Sys2Proof/Laws/Decode.lean ====
section
/-! SUPPORT. The small lemmas of the descriptor format, the address decode and the fetch. -/

namespace Sys2Proof

/-! ### Fields (30_encoding.md R61) -/

/-- Every field is read back from where it was put. -/
@[simp] theorem fieldsOf_packFields (f : Fields) : fieldsOf (packFields f) = f := by
  cases f
  simp only [fieldsOf, packFields, Fields.mk.injEq]
  refine ⟨?_, ?_, ?_, ?_, ?_, ?_⟩ <;>
    (apply BitVec.eq_of_getLsbD_eq; intro k hk
     simp only [BitVec.getLsbD_extractLsb', BitVec.getLsbD_append])
  all_goals (simp only [hk, decide_true, Bool.true_and]; repeat' split)
  all_goals first | omega | (congr 1; omega)

/-- The fields make up the whole descriptor. -/
@[simp] theorem packFields_fieldsOf (d : Descriptor) : packFields (fieldsOf d) = d := by
  apply BitVec.eq_of_getLsbD_eq
  intro k hk
  simp only [fieldsOf, packFields, BitVec.getLsbD_extractLsb', BitVec.getLsbD_append]
  repeat' split
  all_goals (rw [decide_eq_true (by omega), Bool.true_and]; congr 1; omega)

/-- A descriptor written `H= A= V=` has these fields. -/
theorem headerOf_descriptorOf (h : Header) (a v : Word) : headerOf (descriptorOf h a v) = h := by
  apply BitVec.eq_of_getLsbD_eq
  intro k hk
  simp only [headerOf, descriptorOf, BitVec.getLsbD_extractLsb', BitVec.getLsbD_append]
  simp only [hk, decide_true, Bool.true_and, Nat.zero_add, if_true]

/-- Every operation code but the reserved ones is the code of its operation (R62). -/
theorem opCodeOf_opBits (op : OpCode) : opCodeOf (opBits op) = some op := by
  cases op <;> rfl

theorem opBits_of_opCodeOf {o : BitVec 4} {op : OpCode} (h : opCodeOf o = some op) : opBits op = o := by
  revert h; revert op; revert o; decide +revert

/-! ### Address decode (R66) -/

theorem decodeRead_zero (n size : Nat) : decodeRead n 0#64 size = .status := by
  simp [decodeRead]

theorem decodeRead_lines {n size : Nat} {offset : Word} (h1 : 4 ≤ offset.toNat) (h2 : offset.toNat < 4 + n)
    (h3 : (offset.toNat - 4) + size ≤ n) : decodeRead n offset size = .lines (offset.toNat - 4) size := by
  have h0 : offset.toNat ≠ 0 := by omega
  simp only [decodeRead, baseOffset, h0, h1, h2, h3, and_self, if_true, if_false]

theorem decodeRead_overrun {n size : Nat} {offset : Word} (h1 : 4 ≤ offset.toNat) (h2 : offset.toNat < 4 + n)
    (h3 : n < (offset.toNat - 4) + size) : decodeRead n offset size = .overrun := by
  have h0 : offset.toNat ≠ 0 := by omega
  have h4 : ¬ (offset.toNat - 4) + size ≤ n := by omega
  simp only [decodeRead, baseOffset, h0, h1, h2, h4, and_self, if_true, if_false]

theorem decodeRead_invalid {n size : Nat} {offset : Word} (h0 : offset.toNat ≠ 0)
    (h : ¬(4 ≤ offset.toNat ∧ offset.toNat < 4 + n)) : decodeRead n offset size = .invalid := by
  simp only [decodeRead, baseOffset, h0, h, if_false]

theorem decodeWrite_zero (n : Nat) : decodeWrite n 0#64 = .status := by
  simp [decodeWrite]

theorem decodeWrite_line {n : Nat} {offset : Word} (h1 : 4 ≤ offset.toNat) (h2 : offset.toNat < 4 + n) :
    decodeWrite n offset = .line (offset.toNat - 4) := by
  have h0 : offset.toNat ≠ 0 := by omega
  simp only [decodeWrite, baseOffset, h0, h1, h2, and_self, if_true, if_false]

theorem decodeWrite_invalid {n : Nat} {offset : Word} (h0 : offset.toNat ≠ 0)
    (h : ¬(4 ≤ offset.toNat ∧ offset.toNat < 4 + n)) : decodeWrite n offset = .invalid := by
  simp only [decodeWrite, baseOffset, h0, h, if_false]

/-- Every write target is reached in exactly one way (R66). -/
theorem decodeWrite_cases (n : Nat) (offset : Word) :
    (offset.toNat = 0 ∧ decodeWrite n offset = .status)
    ∨ (4 ≤ offset.toNat ∧ offset.toNat < 4 + n ∧ decodeWrite n offset = .line (offset.toNat - 4))
    ∨ (offset.toNat ≠ 0 ∧ ¬(4 ≤ offset.toNat ∧ offset.toNat < 4 + n) ∧ decodeWrite n offset = .invalid) := by
  by_cases h0 : offset.toNat = 0
  · exact .inl ⟨h0, by simp [decodeWrite, h0]⟩
  · by_cases h : 4 ≤ offset.toNat ∧ offset.toNat < 4 + n
    · exact .inr (.inl ⟨h.1, h.2, decodeWrite_line h.1 h.2⟩)
    · exact .inr (.inr ⟨h0, h, decodeWrite_invalid h0 h⟩)

/-- Every read target is reached in exactly one way (R66). -/
theorem decodeRead_cases (n : Nat) (offset : Word) (size : Nat) :
    (offset.toNat = 0 ∧ decodeRead n offset size = .status)
    ∨ (4 ≤ offset.toNat ∧ offset.toNat < 4 + n ∧ (offset.toNat - 4) + size ≤ n
        ∧ decodeRead n offset size = .lines (offset.toNat - 4) size)
    ∨ (4 ≤ offset.toNat ∧ offset.toNat < 4 + n ∧ n < (offset.toNat - 4) + size
        ∧ decodeRead n offset size = .overrun)
    ∨ (offset.toNat ≠ 0 ∧ ¬(4 ≤ offset.toNat ∧ offset.toNat < 4 + n) ∧ decodeRead n offset size = .invalid) := by
  by_cases h0 : offset.toNat = 0
  · exact .inl ⟨h0, by simp [decodeRead, h0]⟩
  · by_cases h : 4 ≤ offset.toNat ∧ offset.toNat < 4 + n
    · by_cases h3 : (offset.toNat - 4) + size ≤ n
      · exact .inr (.inl ⟨h.1, h.2, h3, decodeRead_lines h.1 h.2 h3⟩)
      · exact .inr (.inr (.inl ⟨h.1, h.2, by omega, decodeRead_overrun h.1 h.2 (by omega)⟩))
    · exact .inr (.inr (.inr ⟨h0, h, decodeRead_invalid h0 h⟩))

end Sys2Proof

namespace Sys2Proof.Machine

/-! ### Fetch -/

/-- What is placed at a position is found there. -/
@[simp] theorem placeAt_getElem (d : Descriptor) (ds : List Descriptor) (p : Nat) : (placeAt d ds p)[p]? = some d := by
  induction p generalizing ds with
  | zero => cases ds <;> rfl
  | succ p ih => cases ds <;> simp [placeAt, ih]

/-- The word that `withFetchWord` stores is the one that the next step fetches. -/
theorem fetch_withFetchWord (s : State) (nbits w : Nat) :
    fetch (s.withFetchWord nbits w) = some (tableDescriptor nbits w) := by
  simp [fetch, State.withFetchWord, presentNext]

end Sys2Proof.Machine
end

