-- ==== Sys2Proof/Laws/State.lean ====
section
/-! SUPPORT. One lemma per field per update of State, true by rfl, so that no later proof unfolds a record update; and
the fields of the state after construction. -/

namespace Sys2Proof.Machine

@[simp] theorem emit_accessSizes (e : Event) (s : State) : (emit e s).accessSizes = s.accessSizes := rfl
@[simp] theorem emit_status (e : Event) (s : State) : (emit e s).status = s.status := rfl
@[simp] theorem emit_lines (e : Event) (s : State) : (emit e s).lines = s.lines := rfl
@[simp] theorem emit_irqOut (e : Event) (s : State) : (emit e s).irqOut = s.irqOut := rfl
@[simp] theorem emit_faultMark (e : Event) (s : State) : (emit e s).faultMark = s.faultMark := rfl
@[simp] theorem emit_trace (e : Event) (s : State) : (emit e s).trace = s.trace ++ [e] := rfl
@[simp] theorem emit_program (e : Event) (s : State) : (emit e s).program = s.program := rfl
@[simp] theorem emit_position (e : Event) (s : State) : (emit e s).position = s.position := rfl
@[simp] theorem emit_config (e : Event) (s : State) : (emit e s).config = s.config := rfl

@[simp] theorem respond_accessSizes (v : Word) (s : State) : (respond v s).accessSizes = s.accessSizes := rfl
@[simp] theorem respond_status (v : Word) (s : State) : (respond v s).status = s.status := rfl
@[simp] theorem respond_lines (v : Word) (s : State) : (respond v s).lines = s.lines := rfl
@[simp] theorem respond_irqOut (v : Word) (s : State) : (respond v s).irqOut = s.irqOut := rfl
@[simp] theorem respond_faultMark (v : Word) (s : State) : (respond v s).faultMark = s.faultMark := rfl
@[simp] theorem respond_trace (v : Word) (s : State) : (respond v s).trace = s.trace ++ [.readData v] := rfl
@[simp] theorem respond_program (v : Word) (s : State) : (respond v s).program = s.program := rfl
@[simp] theorem respond_position (v : Word) (s : State) : (respond v s).position = s.position := rfl
@[simp] theorem respond_config (v : Word) (s : State) : (respond v s).config = s.config := rfl

@[simp] theorem logInvalid_accessSizes (e : LogEntry) (s : State) : (logInvalid e s).accessSizes = s.accessSizes := rfl
@[simp] theorem logInvalid_status (e : LogEntry) (s : State) : (logInvalid e s).status = s.status := rfl
@[simp] theorem logInvalid_lines (e : LogEntry) (s : State) : (logInvalid e s).lines = s.lines := rfl
@[simp] theorem logInvalid_irqOut (e : LogEntry) (s : State) : (logInvalid e s).irqOut = s.irqOut := rfl
@[simp] theorem logInvalid_faultMark (e : LogEntry) (s : State) : (logInvalid e s).faultMark = s.faultMark := rfl
@[simp] theorem logInvalid_trace (e : LogEntry) (s : State) : (logInvalid e s).trace = s.trace ++ [.log e] := rfl
@[simp] theorem logInvalid_program (e : LogEntry) (s : State) : (logInvalid e s).program = s.program := rfl
@[simp] theorem logInvalid_position (e : LogEntry) (s : State) : (logInvalid e s).position = s.position := rfl
@[simp] theorem logInvalid_config (e : LogEntry) (s : State) : (logInvalid e s).config = s.config := rfl

@[simp] theorem drive_accessSizes (b : Bool) (s : State) : (drive b s).accessSizes = s.accessSizes := rfl
@[simp] theorem drive_status (b : Bool) (s : State) : (drive b s).status = s.status := rfl
@[simp] theorem drive_lines (b : Bool) (s : State) : (drive b s).lines = s.lines := rfl
@[simp] theorem drive_irqOut (b : Bool) (s : State) : (drive b s).irqOut = b := rfl
@[simp] theorem drive_faultMark (b : Bool) (s : State) : (drive b s).faultMark = s.faultMark := rfl
@[simp] theorem drive_trace (b : Bool) (s : State) : (drive b s).trace = s.trace ++ [.drive b] := rfl
@[simp] theorem drive_program (b : Bool) (s : State) : (drive b s).program = s.program := rfl
@[simp] theorem drive_position (b : Bool) (s : State) : (drive b s).position = s.position := rfl
@[simp] theorem drive_config (b : Bool) (s : State) : (drive b s).config = s.config := rfl

@[simp] theorem recompute_accessSizes (s : State) : (recompute s).accessSizes = s.accessSizes := rfl
@[simp] theorem recompute_status (s : State) : (recompute s).status = s.status := rfl
@[simp] theorem recompute_lines (s : State) : (recompute s).lines = s.lines := rfl
@[simp] theorem recompute_irqOut (s : State) : (recompute s).irqOut = aggregate s.status s.lines := rfl
@[simp] theorem recompute_faultMark (s : State) : (recompute s).faultMark = s.faultMark := rfl
@[simp] theorem recompute_trace (s : State) : (recompute s).trace = s.trace ++ [.drive (aggregate s.status s.lines)] := rfl
@[simp] theorem recompute_program (s : State) : (recompute s).program = s.program := rfl
@[simp] theorem recompute_position (s : State) : (recompute s).position = s.position := rfl
@[simp] theorem recompute_config (s : State) : (recompute s).config = s.config := rfl

@[simp] theorem setStatus_accessSizes (w : StatusWord) (s : State) : (setStatus w s).accessSizes = s.accessSizes := rfl
@[simp] theorem setStatus_status (w : StatusWord) (s : State) : (setStatus w s).status = w := rfl
@[simp] theorem setStatus_lines (w : StatusWord) (s : State) : (setStatus w s).lines = s.lines := rfl
@[simp] theorem setStatus_irqOut (w : StatusWord) (s : State) : (setStatus w s).irqOut = s.irqOut := rfl
@[simp] theorem setStatus_faultMark (w : StatusWord) (s : State) : (setStatus w s).faultMark = s.faultMark := rfl
@[simp] theorem setStatus_trace (w : StatusWord) (s : State) : (setStatus w s).trace = s.trace := rfl
@[simp] theorem setStatus_program (w : StatusWord) (s : State) : (setStatus w s).program = s.program := rfl
@[simp] theorem setStatus_position (w : StatusWord) (s : State) : (setStatus w s).position = s.position := rfl
@[simp] theorem setStatus_config (w : StatusWord) (s : State) : (setStatus w s).config = s.config := rfl

@[simp] theorem updateLine_accessSizes (i : Nat) (f : Byte → Byte) (s : State) : (updateLine i f s).accessSizes = s.accessSizes := rfl
@[simp] theorem updateLine_status (i : Nat) (f : Byte → Byte) (s : State) : (updateLine i f s).status = s.status := rfl
@[simp] theorem updateLine_lines (i : Nat) (f : Byte → Byte) (s : State) : (updateLine i f s).lines = s.lines.modify i f := rfl
@[simp] theorem updateLine_irqOut (i : Nat) (f : Byte → Byte) (s : State) : (updateLine i f s).irqOut = s.irqOut := rfl
@[simp] theorem updateLine_faultMark (i : Nat) (f : Byte → Byte) (s : State) : (updateLine i f s).faultMark = s.faultMark := rfl
@[simp] theorem updateLine_trace (i : Nat) (f : Byte → Byte) (s : State) : (updateLine i f s).trace = s.trace := rfl
@[simp] theorem updateLine_program (i : Nat) (f : Byte → Byte) (s : State) : (updateLine i f s).program = s.program := rfl
@[simp] theorem updateLine_position (i : Nat) (f : Byte → Byte) (s : State) : (updateLine i f s).position = s.position := rfl
@[simp] theorem updateLine_config (i : Nat) (f : Byte → Byte) (s : State) : (updateLine i f s).config = s.config := by simp [State.config]

@[simp] theorem advance_accessSizes (s : State) : (advance s).accessSizes = s.accessSizes := rfl
@[simp] theorem advance_status (s : State) : (advance s).status = s.status := rfl
@[simp] theorem advance_lines (s : State) : (advance s).lines = s.lines := rfl
@[simp] theorem advance_irqOut (s : State) : (advance s).irqOut = s.irqOut := rfl
@[simp] theorem advance_faultMark (s : State) : (advance s).faultMark = s.faultMark := rfl
@[simp] theorem advance_trace (s : State) : (advance s).trace = s.trace := rfl
@[simp] theorem advance_program (s : State) : (advance s).program = s.program := rfl
@[simp] theorem advance_position (s : State) : (advance s).position = s.position + 1 := rfl
@[simp] theorem advance_config (s : State) : (advance s).config = s.config := rfl

@[simp] theorem presentNext_accessSizes (d : Descriptor) (s : State) : (presentNext d s).accessSizes = s.accessSizes := rfl
@[simp] theorem presentNext_status (d : Descriptor) (s : State) : (presentNext d s).status = s.status := rfl
@[simp] theorem presentNext_lines (d : Descriptor) (s : State) : (presentNext d s).lines = s.lines := rfl
@[simp] theorem presentNext_irqOut (d : Descriptor) (s : State) : (presentNext d s).irqOut = s.irqOut := rfl
@[simp] theorem presentNext_faultMark (d : Descriptor) (s : State) : (presentNext d s).faultMark = s.faultMark := rfl
@[simp] theorem presentNext_trace (d : Descriptor) (s : State) : (presentNext d s).trace = s.trace := rfl
@[simp] theorem presentNext_program (d : Descriptor) (s : State) : (presentNext d s).program = placeAt d s.program s.position := rfl
@[simp] theorem presentNext_position (d : Descriptor) (s : State) : (presentNext d s).position = s.position := rfl
@[simp] theorem presentNext_config (d : Descriptor) (s : State) : (presentNext d s).config = s.config := rfl

@[simp] theorem presentAll_accessSizes (ds : List Descriptor) (s : State) : (presentAll ds s).accessSizes = s.accessSizes := rfl
@[simp] theorem presentAll_status (ds : List Descriptor) (s : State) : (presentAll ds s).status = s.status := rfl
@[simp] theorem presentAll_lines (ds : List Descriptor) (s : State) : (presentAll ds s).lines = s.lines := rfl
@[simp] theorem presentAll_irqOut (ds : List Descriptor) (s : State) : (presentAll ds s).irqOut = s.irqOut := rfl
@[simp] theorem presentAll_faultMark (ds : List Descriptor) (s : State) : (presentAll ds s).faultMark = s.faultMark := rfl
@[simp] theorem presentAll_trace (ds : List Descriptor) (s : State) : (presentAll ds s).trace = s.trace := rfl
@[simp] theorem presentAll_program (ds : List Descriptor) (s : State) : (presentAll ds s).program = s.program ++ ds := rfl
@[simp] theorem presentAll_position (ds : List Descriptor) (s : State) : (presentAll ds s).position = s.position := rfl
@[simp] theorem presentAll_config (ds : List Descriptor) (s : State) : (presentAll ds s).config = s.config := rfl

@[simp] theorem afterTrace_accessSizes (pre : List Event) (s : State) : (afterTrace pre s).accessSizes = s.accessSizes := rfl
@[simp] theorem afterTrace_status (pre : List Event) (s : State) : (afterTrace pre s).status = s.status := rfl
@[simp] theorem afterTrace_lines (pre : List Event) (s : State) : (afterTrace pre s).lines = s.lines := rfl
@[simp] theorem afterTrace_irqOut (pre : List Event) (s : State) : (afterTrace pre s).irqOut = s.irqOut := rfl
@[simp] theorem afterTrace_faultMark (pre : List Event) (s : State) : (afterTrace pre s).faultMark = s.faultMark := rfl
@[simp] theorem afterTrace_trace (pre : List Event) (s : State) : (afterTrace pre s).trace = pre ++ s.trace := rfl
@[simp] theorem afterTrace_program (pre : List Event) (s : State) : (afterTrace pre s).program = s.program := rfl
@[simp] theorem afterTrace_position (pre : List Event) (s : State) : (afterTrace pre s).position = s.position := rfl
@[simp] theorem afterTrace_config (pre : List Event) (s : State) : (afterTrace pre s).config = s.config := rfl

@[simp] theorem ofConfig_accessSizes (c : Config) : (State.ofConfig c).accessSizes = c.accessSizes := rfl
@[simp] theorem ofConfig_status (c : Config) : (State.ofConfig c).status = 0#32 := rfl
@[simp] theorem ofConfig_lines (c : Config) : (State.ofConfig c).lines = List.replicate c.numIrqs 0#8 := rfl
@[simp] theorem ofConfig_irqOut (c : Config) : (State.ofConfig c).irqOut = false := rfl
@[simp] theorem ofConfig_faultMark (c : Config) : (State.ofConfig c).faultMark = FaultMark.none := rfl
@[simp] theorem ofConfig_trace (c : Config) : (State.ofConfig c).trace = [] := rfl
@[simp] theorem ofConfig_program (c : Config) : (State.ofConfig c).program = [] := rfl
@[simp] theorem ofConfig_position (c : Config) : (State.ofConfig c).position = 0 := rfl
@[simp] theorem ofConfig_config (c : Config) : (State.ofConfig c).config = c := by simp [State.config]

@[simp] theorem config_numIrqs (s : State) : s.config.numIrqs = s.lines.length := rfl
@[simp] theorem config_accessSizes (s : State) : s.config.accessSizes = s.accessSizes := rfl

/-! ### The projections of the trace -/

@[simp] theorem readsOf_append (xs ys : List Event) : readsOf (xs ++ ys) = readsOf xs ++ readsOf ys := by
  induction xs with
  | nil => rfl
  | cons e es ih => cases e <;> simp [readsOf, ih]

@[simp] theorem drivesOf_append (xs ys : List Event) : drivesOf (xs ++ ys) = drivesOf xs ++ drivesOf ys := by
  induction xs with
  | nil => rfl
  | cons e es ih => cases e <;> simp [drivesOf, ih]

@[simp] theorem logsOf_append (xs ys : List Event) : logsOf (xs ++ ys) = logsOf xs ++ logsOf ys := by
  induction xs with
  | nil => rfl
  | cons e es ih => cases e <;> simp [logsOf, ih]

end Sys2Proof.Machine
end

