-- ==== Sys2Proof/Laws/Ops.lean ====
section
/-! SUPPORT. What each shared operation can do, said once: the cases of a bus access, a line update with its drive, the
debug operations, and the inversion lemmas of `exec` and `step`. -/

namespace Sys2Proof.Machine

/-! ### Control bits and the aggregate (41_update_engine.md R100) -/

theorem effective_iff (b : Byte) : effective b = true ↔ b.getLsbD 0 = true ∧ b.getLsbD 1 = true := by
  revert b; decide

theorem globalIrqEnabled_getLsbD (k : Nat) : globalIrqEnabled.getLsbD k = decide (k = 0) := by
  cases k with
  | zero => rfl
  | succ k => simp [globalIrqEnabled]

theorem globalEnable_iff (w : StatusWord) : w &&& globalIrqEnabled ≠ 0#32 ↔ w.getLsbD 0 = true := by
  constructor
  · intro h
    by_contra hb
    apply h
    apply BitVec.eq_of_getLsbD_eq
    intro k _
    rw [BitVec.getLsbD_and, globalIrqEnabled_getLsbD, BitVec.getLsbD_zero]
    by_cases hk : k = 0
    · rw [hk, Bool.eq_false_iff.mpr hb, Bool.false_and]
    · rw [decide_eq_false hk, Bool.and_false]
  · intro h hz
    have h0 := congrArg (fun v => v.getLsbD 0) hz
    simp only [BitVec.getLsbD_and, globalIrqEnabled_getLsbD, h] at h0
    cases h0

/-- R100 in terms of bits: the gate and the OR. -/
theorem aggregate_iff (status : StatusWord) (lines : List Byte) :
    aggregate status lines = true ↔ status.getLsbD 0 = true ∧ anyActive lines = true := by
  rw [← globalEnable_iff]
  by_cases h : status &&& globalIrqEnabled ≠ 0#32
  · simp only [aggregate, h, ne_eq, not_false_eq_true, if_true, true_and]
  · simp only [aggregate, h, if_false, Bool.false_eq_true, false_and]

theorem setActive_getLsbD (b : Byte) (k : Nat) : (setActive b).getLsbD k = (decide (k = 0) || b.getLsbD k) := by
  cases k with
  | zero => simp [setActive, irqNActive]
  | succ k => simp [setActive, irqNActive]

theorem setEnabled_getLsbD (b : Byte) (k : Nat) : (setEnabled b).getLsbD k = (decide (k = 1) || b.getLsbD k) := by
  by_cases hk : k < 8
  · interval_cases k <;> simp [setEnabled, irqNEnabled]
  · have h : b.getLsbD k = false := BitVec.getLsbD_of_ge b k (by omega)
    have h1 : k ≠ 1 := by omega
    have h2 : irqNEnabled.getLsbD k = false := BitVec.getLsbD_of_ge _ k (by omega)
    simp [setEnabled, h, h1, h2]

theorem clearActive_eq (b : Byte) : clearActive b = b &&& 0xFE#8 := rfl

theorem clearEnabled_eq (b : Byte) : clearEnabled b = b &&& 0xFD#8 := rfl

theorem clearActive_getLsbD (b : Byte) (k : Nat) : (clearActive b).getLsbD k = (!decide (k = 0) && b.getLsbD k) := by
  by_cases hk : k < 8
  · interval_cases k <;> simp [clearActive, irqNActive]
  · have h : b.getLsbD k = false := BitVec.getLsbD_of_ge b k (by omega)
    simp [clearActive, h]

theorem clearEnabled_getLsbD (b : Byte) (k : Nat) : (clearEnabled b).getLsbD k = (!decide (k = 1) && b.getLsbD k) := by
  by_cases hk : k < 8
  · interval_cases k <;> simp [clearEnabled, irqNEnabled]
  · have h : b.getLsbD k = false := BitVec.getLsbD_of_ge b k (by omega)
    simp [clearEnabled, h]

/-! ### The update engine and the line registers -/

theorem recompute_drivesOnce (s : State) : DrivesOnce s (recompute s) := ⟨rfl, rfl⟩

theorem updateLine_onlyLine {i : Nat} {b : Byte} {s : State} (f : Byte → Byte) (h : s.lines[i]? = some b) :
    OnlyLine i (f b) s (updateLine i f s) := by
  refine ⟨by simp, by simp [h], fun j hj => ?_⟩
  simp [Ne.symm hj]

/-- A line update followed by the update engine: all it does. -/
theorem lineUpdate_spec {i : Nat} {b : Byte} {s : State} (f : Byte → Byte) (h : s.lines[i]? = some b) :
    OnlyLine i (f b) s (recompute (updateLine i f s)) ∧ (recompute (updateLine i f s)).status = s.status
      ∧ DrivesOnce s (recompute (updateLine i f s)) ∧ SameHost s (recompute (updateLine i f s)) :=
  ⟨updateLine_onlyLine f h, rfl, ⟨rfl, rfl⟩, rfl, rfl, rfl, rfl⟩

/-! ### The register port -/

theorem busRead_status (s : State) (size : Nat) : busRead 0#64 size s = rdStatus s := by
  simp [busRead, decodeRead_zero]

theorem busRead_lines {s : State} {size : Nat} {offset : Word} (h1 : 4 ≤ offset.toNat)
    (h2 : offset.toNat < 4 + s.lines.length) (h3 : (offset.toNat - 4) + size ≤ s.lines.length) :
    busRead offset size s = rdLine (offset.toNat - 4) size s := by
  simp [busRead, decodeRead_lines h1 h2 h3]

theorem busRead_overrun {s : State} {size : Nat} {offset : Word} (h1 : 4 ≤ offset.toNat)
    (h2 : offset.toNat < 4 + s.lines.length) (h3 : s.lines.length < (offset.toNat - 4) + size) :
    busRead offset size s = rdOverrun offset size s := by
  simp [busRead, decodeRead_overrun h1 h2 h3]

theorem busRead_invalid {s : State} {size : Nat} {offset : Word} (h0 : offset.toNat ≠ 0)
    (h : ¬(4 ≤ offset.toNat ∧ offset.toNat < 4 + s.lines.length)) :
    busRead offset size s = rdInvalid offset size s := by
  simp [busRead, decodeRead_invalid h0 h]

theorem busWrite_status (s : State) (size : Nat) (value : Word) : busWrite 0#64 size value s = wrStatus value s := by
  simp [busWrite, decodeWrite_zero]

theorem busWrite_line {s : State} {size : Nat} {offset : Word} (value : Word) (h1 : 4 ≤ offset.toNat)
    (h2 : offset.toNat < 4 + s.lines.length) :
    busWrite offset size value s = wrLine (offset.toNat - 4) value s := by
  simp [busWrite, decodeWrite_line h1 h2]

theorem busWrite_invalid {s : State} {size : Nat} {offset : Word} (value : Word) (h0 : offset.toNat ≠ 0)
    (h : ¬(4 ≤ offset.toNat ∧ offset.toNat < 4 + s.lines.length)) :
    busWrite offset size value s = wrInvalid offset size value s := by
  simp [busWrite, decodeWrite_invalid h0 h]

/-- A bus read records a log event or none, then its response, and does nothing else (40_register_access.md R89). -/
theorem busRead_spec (offset : Word) (size : Nat) (s : State) :
    ∃ (v : Word) (es : List Event), busRead offset size s = { s with trace := s.trace ++ es ++ [.readData v] }
      ∧ (es = [] ∨ es = [.log (.invalidRead offset size)]) := by
  rcases decodeRead_cases s.lines.length offset size with ⟨h0, h⟩ | ⟨_, _, _, h⟩ | ⟨_, _, _, h⟩ | ⟨_, _, h⟩
  · exact ⟨statusData s.status, [], by simp [busRead, h, rdStatus, respond, emit], .inl rfl⟩
  · exact ⟨packLines s.lines (offset.toNat - 4) size, [], by simp [busRead, h, rdLine, respond, emit], .inl rfl⟩
  · exact ⟨0#64, [.log (.invalidRead offset size)],
      by simp [busRead, h, rdOverrun, respond, logInvalid, emit], .inr rfl⟩
  · exact ⟨0#64, [.log (.invalidRead offset size)],
      by simp [busRead, h, rdInvalid, respond, logInvalid, emit], .inr rfl⟩

/-- A bus write replaces the status word, or one line register, or only logs (R85). -/
theorem busWrite_spec (offset : Word) (size : Nat) (value : Word) (s : State) :
    (offset.toNat = 0 ∧ busWrite offset size value s = recompute (setStatus (statusOfData value) s))
    ∨ (4 ≤ offset.toNat ∧ offset.toNat < 4 + s.lines.length
        ∧ busWrite offset size value s = recompute (updateLine (offset.toNat - 4) (fun _ => byteOfData value) s))
    ∨ (offset.toNat ≠ 0 ∧ ¬(4 ≤ offset.toNat ∧ offset.toNat < 4 + s.lines.length)
        ∧ busWrite offset size value s = logInvalid (.invalidWrite offset size value) s) := by
  rcases decodeWrite_cases s.lines.length offset with ⟨h0, h⟩ | ⟨h1, h2, h⟩ | ⟨h0, h1, h⟩
  · exact .inl ⟨h0, by simp [busWrite, h, wrStatus]⟩
  · exact .inr (.inl ⟨h1, h2, by simp [busWrite, h, wrLine]⟩)
  · exact .inr (.inr ⟨h0, h1, by simp [busWrite, h, wrInvalid]⟩)

/-- Byte `k` of a packed read is line register `first + k`, and 0 from `count` up (R82). -/
theorem packLines_getLsbD (lines : List Byte) (first count k : Nat) (hk : k < 64) :
    (packLines lines first count).getLsbD k
      = (decide (k < 8 * count) && (lines.getD (first + k / 8) 0#8).getLsbD (k % 8)) := by
  induction count with
  | zero => simp [packLines]
  | succ n ih =>
    simp only [packLines, BitVec.getLsbD_or, ih, BitVec.getLsbD_shiftLeft, BitVec.getLsbD_setWidth, hk, decide_true,
      Bool.true_and]
    by_cases h1 : k < 8 * n
    · have h2 : k < 8 * (n + 1) := by omega
      simp [h1, h2]
    · by_cases h2 : k < 8 * (n + 1)
      · have h3 : k / 8 = n := by omega
        have h4 : k - 8 * n = k % 8 := by omega
        have h5 : k % 8 < 64 := by omega
        simp [h1, h2, h3, h4, h5]
      · have h6 : 8 ≤ k - 8 * n := by omega
        simp only [h1, h2, decide_false, Bool.false_and, Bool.false_or, Bool.not_false, Bool.true_and]
        rw [BitVec.getLsbD_of_ge _ _ h6, Bool.and_false]

/-! ### The debug-control port -/

theorem debugValid_iff (n : Nat) (index : Word) :
    debugValid n index = true ↔ 0 ≤ index.toInt ∧ index.toInt < n := by
  simp [debugValid]

theorem debugUpdate_valid {s : State} {index : Word} {j : Nat} (f : Byte → Byte) (hj : index.toInt = j)
    (h : j < s.lines.length) : debugUpdate index f s = recompute (updateLine j f s) := by
  simp [debugUpdate, debugValid, debugLine, hj, h]

theorem debugUpdate_invalid {s : State} {index : Word} (f : Byte → Byte)
    (h : index.toInt < 0 ∨ (s.lines.length : Int) ≤ index.toInt) : debugUpdate index f s = s := by
  have hv : debugValid s.lines.length index = false := by
    rw [Bool.eq_false_iff]
    intro hv
    rw [debugValid_iff] at hv
    omega
  simp [debugUpdate, hv]

theorem debugUpdate_cases (index : Word) (f : Byte → Byte) (s : State) :
    (∃ j : Nat, index.toInt = j ∧ j < s.lines.length ∧ debugUpdate index f s = recompute (updateLine j f s))
    ∨ ((index.toInt < 0 ∨ (s.lines.length : Int) ≤ index.toInt) ∧ debugUpdate index f s = s) := by
  by_cases h : 0 ≤ index.toInt ∧ index.toInt < s.lines.length
  · exact .inl ⟨index.toInt.toNat, by omega, by omega, debugUpdate_valid f (by omega) (by omega)⟩
  · exact .inr ⟨by omega, debugUpdate_invalid f (by omega)⟩

/-! ### The line input -/

theorem execLineEvent_valid {s : State} {index : Word} (level : Bool) (h : index.toNat < s.lines.length) :
    execLineEvent index level s = .next (setLine index.toNat level s) := by
  simp [execLineEvent, inputLineValid, h]

theorem execLineEvent_invalid {s : State} {index : Word} (level : Bool) (h : s.lines.length ≤ index.toNat) :
    execLineEvent index level s = .fault (raiseInvalidInputLine index s) := by
  simp [execLineEvent, inputLineValid, h]

/-! ### Inversion: what one operation, and one step, can do -/

/-- The state changes of the block: everything an operation that completes can do. -/
inductive Change (i : Instr) (s : State) : State → Prop where
  /-- A bus read. -/
  | read (v : Word) (es : List Event) (hi : i.opCode = .busRead)
      (hes : es = [] ∨ ∃ offset size, es = [.log (.invalidRead offset size)]) :
      Change i s { s with trace := s.trace ++ es ++ [.readData v] }
  /-- A status write. -/
  | status (w : StatusWord) (hi : i.opCode = .busWrite) : Change i s (recompute (setStatus w s))
  /-- A change of one line register that exists. -/
  | line (j : Nat) (f : Byte → Byte) (hi : i.opCode ≠ .busRead) (hj : j < s.lines.length) :
      Change i s (recompute (updateLine j f s))
  /-- A write to no register. -/
  | logged (e : LogEntry) (hi : i.opCode = .busWrite) : Change i s (logInvalid e s)
  /-- A debug operation on an invalid index. -/
  | nothing (hi : isBusOp i.opCode = false) : Change i s s

theorem busRead_change {i : Instr} (hi : i.opCode = .busRead) (offset : Word) (size : Nat) (s : State) :
    Change i s (busRead offset size s) := by
  obtain ⟨v, es, h, hes⟩ := busRead_spec offset size s
  rw [h]
  exact .read v es hi (hes.imp id (fun h => ⟨offset, size, h⟩))

theorem busWrite_change {i : Instr} (hi : i.opCode = .busWrite) (offset : Word) (size : Nat) (value : Word)
    (s : State) : Change i s (busWrite offset size value s) := by
  rcases busWrite_spec offset size value s with ⟨_, h⟩ | ⟨h1, h2, h⟩ | ⟨_, _, h⟩ <;> rw [h]
  · exact .status _ hi
  · exact .line _ _ (by rw [hi]; decide) (by omega)
  · exact .logged _ hi

theorem debugUpdate_change {i : Instr} (hi : isBusOp i.opCode = false) (index : Word) (f : Byte → Byte) (s : State) :
    Change i s (debugUpdate index f s) := by
  rcases debugUpdate_cases index f s with ⟨j, _, hj, h⟩ | ⟨_, h⟩ <;> rw [h]
  · exact .line _ _ (by intro hc; rw [hc] at hi; cases hi) hj
  · exact .nothing hi

/-- The inversion lemma of `exec`: an operation completes with one of the changes above, or is a LINE_EVENT on a line
that does not exist and faults; it is never refused. -/
theorem exec_inversion (i : Instr) (s : State) :
    (∃ t, exec i s = .next t ∧ Change i s t)
    ∨ (∃ index level, i = .lineEvent index level ∧ s.lines.length ≤ index.toNat
        ∧ exec i s = .fault (raiseInvalidInputLine index s)) := by
  cases i with
  | readStatus size => exact .inl ⟨_, rfl, busRead_change rfl _ _ _⟩
  | readLine offset size => exact .inl ⟨_, rfl, busRead_change rfl _ _ _⟩
  | readOverrun offset size => exact .inl ⟨_, rfl, busRead_change rfl _ _ _⟩
  | readInvalid offset size => exact .inl ⟨_, rfl, busRead_change rfl _ _ _⟩
  | writeStatus size value => exact .inl ⟨_, rfl, busWrite_change rfl _ _ _ _⟩
  | writeLine offset size value => exact .inl ⟨_, rfl, busWrite_change rfl _ _ _ _⟩
  | writeInvalid offset size value => exact .inl ⟨_, rfl, busWrite_change rfl _ _ _ _⟩
  | lineEvent index level =>
    by_cases h : index.toNat < s.lines.length
    · exact .inl ⟨_, execLineEvent_valid level h, .line _ _ (fun hc => by cases hc) h⟩
    · exact .inr ⟨index, level, rfl, by omega, execLineEvent_invalid level (by omega)⟩
  | dbgSet index => exact .inl ⟨_, rfl, debugUpdate_change rfl _ _ _⟩
  | dbgClear index => exact .inl ⟨_, rfl, debugUpdate_change rfl _ _ _⟩
  | dbgEnable index => exact .inl ⟨_, rfl, debugUpdate_change rfl _ _ _⟩
  | dbgDisable index => exact .inl ⟨_, rfl, debugUpdate_change rfl _ _ _⟩

theorem exec_next_change {i : Instr} {s t : State} (h : exec i s = .next t) : Change i s t := by
  rcases exec_inversion i s with ⟨u, hu, hc⟩ | ⟨_, _, _, _, hf⟩
  · rw [h] at hu
    cases hu
    exact hc
  · rw [h] at hf
    cases hf

/-- The inversion lemma of `step`: a step that answers a state had no fault mark, and was idle, or ran the operation
decoded from the descriptor at its position. -/
theorem step_next_cases {s t : State} (h : step s = .next t) :
    s.faultMark = .none ∧
      ((s.program.length ≤ s.position ∧ t = s)
      ∨ ∃ d i u, s.program[s.position]? = some d ∧ decode s.config d = .instr i ∧ exec i s = .next u
          ∧ t = advance u) := by
  unfold step at h
  split at h
  · cases h
  · rename_i hm
    have hm' : s.faultMark = .none := by simpa [isHalted] using hm
    refine ⟨hm', ?_⟩
    split at h
    · rename_i hf
      cases h
      exact .inl ⟨by simpa [fetch] using hf, rfl⟩
    · rename_i d hf
      split at h
      · cases h
      · rename_i i hd
        cases he : exec i s with
        | next u =>
          rw [he] at h
          cases h
          exact .inr ⟨d, i, u, hf, hd, he, rfl⟩
        | fault f =>
          rw [he] at h
          cases h
        | refused r =>
          rw [he] at h
          cases h

end Sys2Proof.Machine
end

