-- ==== Sys2Proof/Laws/PerInstr.lean ====
section
/-! SUPPORT. A family of statements made per operation: the header of every encoded operation matches its row's pattern
in spec/opcode_table.json (30_encoding.md R63). -/

namespace Sys2Proof.Laws

/-- The header of the operation's descriptor, under the mask of its row, is the row's match. -/
def HeaderPattern.Statement (i : Instr) : Prop :=
  headerOf (encode i) &&& headerMask i.opCode = headerMatch i.opCode

/-- The header is made of the four low fields (R61). -/
theorem headerOf_packFields (f : Fields) : headerOf (packFields f) = f.reserved ++ f.level ++ f.size ++ f.op := by
  apply BitVec.eq_of_getLsbD_eq
  intro k hk
  simp only [headerOf, packFields, BitVec.getLsbD_extractLsb', BitVec.getLsbD_append, hk, decide_true, Bool.true_and,
    Nat.zero_add]
  repeat' split
  all_goals first | omega | rfl

/-- The size field is free under the masks of the two bus operations. -/
theorem read_header (size : BitVec 4) : (0#7 ++ 0#1 ++ size ++ 0x1#4 : BitVec 16) &&& 0xFF0F#16 = 0x0001#16 := by
  revert size; decide

theorem write_header (size : BitVec 4) : (0#7 ++ 0#1 ++ size ++ 0x2#4 : BitVec 16) &&& 0xFF0F#16 = 0x0002#16 := by
  revert size; decide

/-- The level bit is free under the mask of LINE_EVENT. -/
theorem line_header (level : Bool) :
    (0#7 ++ BitVec.ofBool level ++ 0#4 ++ 0x3#4 : BitVec 16) &&& 0xFEFF#16 = 0x0003#16 := by
  revert level; decide

/-- No bit is free in the headers of the four debug operations. -/
theorem debug_headers :
    (0#7 ++ 0#1 ++ 0#4 ++ 0x4#4 : BitVec 16) &&& 0xFFFF#16 = 0x0004#16
    ∧ (0#7 ++ 0#1 ++ 0#4 ++ 0x5#4 : BitVec 16) &&& 0xFFFF#16 = 0x0005#16
    ∧ (0#7 ++ 0#1 ++ 0#4 ++ 0x6#4 : BitVec 16) &&& 0xFFFF#16 = 0x0006#16
    ∧ (0#7 ++ 0#1 ++ 0#4 ++ 0x7#4 : BitVec 16) &&& 0xFFFF#16 = 0x0007#16 := by
  decide

theorem HeaderPattern.readStatus (size : Nat) : HeaderPattern.Statement (.readStatus size) := by
  rw [HeaderPattern.Statement, encode, headerOf_packFields]
  exact read_header _

theorem HeaderPattern.readLine (offset : Word) (size : Nat) : HeaderPattern.Statement (.readLine offset size) := by
  rw [HeaderPattern.Statement, encode, headerOf_packFields]
  exact read_header _

theorem HeaderPattern.readOverrun (offset : Word) (size : Nat) : HeaderPattern.Statement (.readOverrun offset size) := by
  rw [HeaderPattern.Statement, encode, headerOf_packFields]
  exact read_header _

theorem HeaderPattern.readInvalid (offset : Word) (size : Nat) : HeaderPattern.Statement (.readInvalid offset size) := by
  rw [HeaderPattern.Statement, encode, headerOf_packFields]
  exact read_header _

theorem HeaderPattern.writeStatus (size : Nat) (value : Word) : HeaderPattern.Statement (.writeStatus size value) := by
  rw [HeaderPattern.Statement, encode, headerOf_packFields]
  exact write_header _

theorem HeaderPattern.writeLine (offset : Word) (size : Nat) (value : Word) : HeaderPattern.Statement (.writeLine offset size value) := by
  rw [HeaderPattern.Statement, encode, headerOf_packFields]
  exact write_header _

theorem HeaderPattern.writeInvalid (offset : Word) (size : Nat) (value : Word) : HeaderPattern.Statement (.writeInvalid offset size value) := by
  rw [HeaderPattern.Statement, encode, headerOf_packFields]
  exact write_header _

theorem HeaderPattern.lineEvent (index : Word) (level : Bool) : HeaderPattern.Statement (.lineEvent index level) := by
  rw [HeaderPattern.Statement, encode, headerOf_packFields]
  exact line_header level

theorem HeaderPattern.dbgSet (index : Word) : HeaderPattern.Statement (.dbgSet index) := by
  rw [HeaderPattern.Statement, encode, headerOf_packFields]
  exact (debug_headers.1)

theorem HeaderPattern.dbgClear (index : Word) : HeaderPattern.Statement (.dbgClear index) := by
  rw [HeaderPattern.Statement, encode, headerOf_packFields]
  exact (debug_headers.2.1)

theorem HeaderPattern.dbgEnable (index : Word) : HeaderPattern.Statement (.dbgEnable index) := by
  rw [HeaderPattern.Statement, encode, headerOf_packFields]
  exact (debug_headers.2.2.1)

theorem HeaderPattern.dbgDisable (index : Word) : HeaderPattern.Statement (.dbgDisable index) := by
  rw [HeaderPattern.Statement, encode, headerOf_packFields]
  exact (debug_headers.2.2.2)

end Sys2Proof.Laws
end

