-- ==== Sys2Proof/Laws/Run.lean ====
section
/-! SUPPORT. What `k + 1` steps of the host's runner, and of `runFrom`, do, by the outcome of the first step. -/

namespace Sys2Proof.Machine

theorem run_zero (s : State) : Host.Core.run Sys2Proof.core 0 s = .next s := rfl

theorem run_succ_next {k : Nat} {s t : State} (h : step s = .next t) :
    Host.Core.run Sys2Proof.core (k + 1) s = Host.Core.run Sys2Proof.core k t := by
  have h' : Sys2Proof.core.step s = .next t := h
  simp only [Host.Core.run, h']

theorem run_succ_fault {k : Nat} {s : State} {f : Fault} (h : step s = .fault f) :
    Host.Core.run Sys2Proof.core (k + 1) s = .fault f := by
  have h' : Sys2Proof.core.step s = .fault f := h
  simp only [Host.Core.run, h']

theorem run_succ_refused {k : Nat} {s : State} {r : Refusal} (h : step s = .refused r) :
    Host.Core.run Sys2Proof.core (k + 1) s = .refused r := by
  have h' : Sys2Proof.core.step s = .refused r := h
  simp only [Host.Core.run, h']

theorem runFrom_succ_next {k : Nat} {s t : State} (h : step s = .next t) : runFrom (k + 1) s = runFrom k t := by
  simp only [runFrom, h]

theorem runFrom_succ_fault {k : Nat} {s : State} {f : Fault} (h : step s = .fault f) :
    runFrom (k + 1) s = .faulted (stoppedState f).faultMark (observe (stoppedState f)) := by
  simp only [runFrom, h]

theorem runFrom_succ_refused {k : Nat} {s : State} {r : Refusal} (h : step s = .refused r) :
    runFrom (k + 1) s = .refused r (observe s) := by
  simp only [runFrom, h]

end Sys2Proof.Machine
end

