-- ==== Sys2Proof/Tests/Slice0.lean ====
section
/-! SUPPORT. The model's own tests: the well-formedness checks, decoding of words written out from the spec, one step of
each operation against 95_test_vectors.md, and a witness for every statement that has hypotheses. Every expected value
is the spec's, from the place named. -/

namespace Sys2Proof.Tests

open Sys2Proof.Machine

/-! ### Helpers -/

/-- A block of four lines with the default sizes. -/
def cfg4 : Config := { numIrqs := 4, accessSizes := [1, 2, 4, 8] }

/-- A state with the given registers that meets the output invariant, nothing recorded, `ds` presented. -/
def block (status : StatusWord) (lines : List Byte) (ds : List Descriptor) : State :=
  { accessSizes := [1, 2, 4, 8], status := status, lines := lines, irqOut := aggregate status lines
    faultMark := .none, trace := [], program := ds, position := 0 }

/-- The registers and outputs after an operation that completes. -/
def after (o : Host.Outcome State Fault Refusal) : Option (StatusWord × List Byte × Bool × List Event) :=
  match o with
  | .next t => some (t.status, t.lines, t.irqOut, t.trace)
  | .fault _ => none
  | .refused _ => none

/-- The state after a step that completes. -/
def nextOf (o : Host.Outcome State Fault Refusal) : Option State :=
  match o with
  | .next t => some t
  | .fault _ => none
  | .refused _ => none

theorem eq_next_of_nextOf {o : Host.Outcome State Fault Refusal} {t : State} (h : nextOf o = some t) : o = .next t := by
  cases o <;> simp_all [nextOf]

/-- The fault of an outcome. -/
def faultOf (o : Host.Outcome State Fault Refusal) : Option Fault :=
  match o with
  | .next _ => none
  | .fault f => some f
  | .refused _ => none

theorem eq_fault_of_faultOf {o : Host.Outcome State Fault Refusal} {f : Fault} (h : faultOf o = some f) :
    o = .fault f := by
  cases o <;> simp_all [faultOf]

/-- The refusal of an outcome. -/
def refusalOf (o : Host.Outcome State Fault Refusal) : Option Refusal :=
  match o with
  | .next _ => none
  | .fault _ => none
  | .refused r => some r

/-! ### WellFormed: an ill-formed term for each check -/

theorem test_wf_size_not_admitted : (Instr.readStatus 3).wf cfg4 = false := by decide
theorem test_wf_size_no_field : (Instr.writeStatus 16 0#64).wf { numIrqs := 4, accessSizes := [16] } = false := by decide
theorem test_wf_line_below : (Instr.readLine 3#64 1).wf cfg4 = false := by decide
theorem test_wf_line_above : (Instr.writeLine 8#64 1 0#64).wf cfg4 = false := by decide
theorem test_wf_line_overruns : (Instr.readLine 6#64 4).wf cfg4 = false := by decide
theorem test_wf_overrun_in_bounds : (Instr.readOverrun 6#64 2).wf cfg4 = false := by decide
theorem test_wf_overrun_no_line : (Instr.readOverrun 8#64 8).wf cfg4 = false := by decide
theorem test_wf_invalid_is_status : (Instr.readInvalid 0#64 1).wf cfg4 = false := by decide
theorem test_wf_invalid_is_line : (Instr.writeInvalid 7#64 1 0#64).wf cfg4 = false := by decide
theorem test_wf_config_no_lines : ({ numIrqs := 0, accessSizes := [1] } : Config).wf = false := by decide
theorem test_wf_config_too_long : ({ numIrqs := 2 ^ 64 - 3, accessSizes := [1] } : Config).wf = false := by decide
theorem test_wf_config_size_zero : ({ numIrqs := 1, accessSizes := [0] } : Config).wf = false := by decide
theorem test_wf_config_size_nine : ({ numIrqs := 1, accessSizes := [9] } : Config).wf = false := by decide

/-! ### Decode: words written out from 30_encoding.md R61, R63, R72; verdicts of 95_test_vectors.md §2.1 and §3 -/

-- D[143:80] = V, D[79:16] = A, D[15:0] = H: the first word is spelled out bit by bit, H = 0000000 0 0001 0001.
theorem test_decode_read_status :
    decode cfg4 (0#64 ++ 0#64 ++ 0b0000000#7 ++ 0b0#1 ++ 0b0001#4 ++ 0b0001#4) = .instr (.readStatus 1) := by decide
theorem test_decode_read_line : decode cfg4 (descriptorOf 0x0021#16 5#64 0#64) = .instr (.readLine 5#64 2) := by decide
theorem test_decode_read_line_last : decode cfg4 (descriptorOf 0x0021#16 6#64 0#64) = .instr (.readLine 6#64 2) := by decide
theorem test_decode_read_overrun : decode cfg4 (descriptorOf 0x0021#16 7#64 0#64) = .instr (.readOverrun 7#64 2) := by decide
theorem test_decode_read_invalid : decode cfg4 (descriptorOf 0x0011#16 3#64 0#64) = .instr (.readInvalid 3#64 1) := by decide
theorem test_decode_read_top :
    decode cfg4 (descriptorOf 0x0011#16 0xFFFFFFFFFFFFFFFF#64 0#64) = .instr (.readInvalid 0xFFFFFFFFFFFFFFFF#64 1) := by
  decide
-- R72's own example: wr 0, 4, 0x1 encodes as H=0x0042 A=0 V=1.
theorem test_script_write_status : scriptWr 0#64 4 1#64 = descriptorOf 0x0042#16 0#64 1#64 := by decide
theorem test_decode_write_status :
    decode cfg4 (1#64 ++ 0#64 ++ 0b0000000#7 ++ 0b0#1 ++ 0b0100#4 ++ 0b0010#4) = .instr (.writeStatus 4 1#64) := by decide
theorem test_decode_write_line :
    decode cfg4 (descriptorOf 0x0012#16 7#64 3#64) = .instr (.writeLine 7#64 1 3#64) := by decide
theorem test_decode_write_invalid :
    decode cfg4 (descriptorOf 0x0042#16 8#64 3#64) = .instr (.writeInvalid 8#64 4 3#64) := by decide
-- H = 0000000 1 0000 0011: the level bit is D[8].
theorem test_decode_line_event :
    decode cfg4 (0#64 ++ 3#64 ++ 0b0000000#7 ++ 0b1#1 ++ 0b0000#4 ++ 0b0011#4) = .instr (.lineEvent 3#64 true) := by decide
theorem test_decode_dbg_set :
    decode cfg4 (0#64 ++ 0x64#64 ++ 0b0000000#7 ++ 0b0#1 ++ 0b0000#4 ++ 0b0100#4) = .instr (.dbgSet 100#64) := by decide
theorem test_decode_dbg_clear : decode cfg4 (descriptorOf 0x0005#16 2#64 0#64) = .instr (.dbgClear 2#64) := by decide
theorem test_decode_dbg_enable : decode cfg4 (descriptorOf 0x0006#16 2#64 0#64) = .instr (.dbgEnable 2#64) := by decide
theorem test_decode_dbg_disable : decode cfg4 (scriptDisableIrq (-2)) = .instr (.dbgDisable 0xFFFFFFFFFFFFFFFE#64) := by
  decide
theorem test_script_minus_two : scriptDisableIrq (-2) = descriptorOf 0x0007#16 0xFFFFFFFFFFFFFFFE#64 0#64 := by decide
theorem test_refuse_size_three : decode cfg4 (descriptorOf 0x0031#16 4#64 0#64) = .refuse .sizeNotAdmitted := by decide
theorem test_refuse_size_zero : decode cfg4 (descriptorOf 0x0001#16 4#64 0#64) = .refuse .sizeNotAdmitted := by decide
theorem test_refuse_op_zero : decode cfg4 (descriptorOf 0x0000#16 0#64 0#64) = .refuse .reservedOp := by decide
theorem test_refuse_op_eight : decode cfg4 (descriptorOf 0x0008#16 0#64 0#64) = .refuse .reservedOp := by decide
theorem test_refuse_op_fifteen : decode cfg4 (descriptorOf 0x000F#16 0#64 0#64) = .refuse .reservedOp := by decide
theorem test_refuse_reserved_bit : decode cfg4 (descriptorOf 0x0203#16 0#64 0#64) = .refuse .reservedBits := by decide
theorem test_refuse_size_on_event : decode cfg4 (descriptorOf 0x0013#16 0#64 0#64) = .refuse .sizeNotZero := by decide
theorem test_refuse_level_on_debug : decode cfg4 (descriptorOf 0x0104#16 0#64 0#64) = .refuse .levelNotZero := by decide
theorem test_refuse_data_on_read : decode cfg4 (descriptorOf 0x0011#16 4#64 1#64) = .refuse .dataNotZero := by decide

/-! ### BUS_READ (95_test_vectors.md §2.2: status 0x80000101, lines 03 01 FE 02) -/

def readBlock : State := block 0x80000101#32 [0x03#8, 0x01#8, 0xFE#8, 0x02#8] []

theorem test_read_status_byte_sized :
    nextOf (exec (.readStatus 1) readBlock) = some { readBlock with trace := [.readData 0x80000101#64] } := by decide
theorem test_read_line_whole_region :
    nextOf (exec (.readLine 4#64 4) readBlock) = some { readBlock with trace := [.readData 0x02FE0103#64] } := by decide
theorem test_read_line_unaligned :
    nextOf (exec (.readLine 5#64 2) readBlock) = some { readBlock with trace := [.readData 0xFE01#64] } := by decide
theorem test_read_overrun :
    nextOf (exec (.readOverrun 7#64 2) readBlock)
      = some { readBlock with trace := [.log (.invalidRead 7#64 2), .readData 0#64] } := by decide
theorem test_read_invalid_two :
    nextOf (exec (.readInvalid 2#64 1) readBlock)
      = some { readBlock with trace := [.log (.invalidRead 2#64 1), .readData 0#64] } := by decide
theorem test_read_invalid_end :
    nextOf (exec (.readInvalid 8#64 1) readBlock)
      = some { readBlock with trace := [.log (.invalidRead 8#64 1), .readData 0#64] } := by decide

/-! ### BUS_WRITE (95_test_vectors.md §2.3: status 1, lines 0 0 0 0) -/

def writeBlock : State := block 1#32 [0#8, 0#8, 0#8, 0#8] []

theorem test_write_status_upper_half_discarded :
    after (exec (.writeStatus 8 0x1234567800000000#64) writeBlock)
      = some (0#32, [0#8, 0#8, 0#8, 0#8], false, [.drive false]) := by decide
theorem test_write_status_all_ones :
    after (exec (.writeStatus 4 0xFFFFFFFF#64) writeBlock)
      = some (0xFFFFFFFF#32, [0#8, 0#8, 0#8, 0#8], false, [.drive false]) := by decide
theorem test_write_line_one_byte_only :
    after (exec (.writeLine 4#64 4 0x03030303#64) writeBlock)
      = some (1#32, [3#8, 0#8, 0#8, 0#8], true, [.drive true]) := by decide
theorem test_write_line_last_with_size_eight :
    after (exec (.writeLine 7#64 8 0xFFFFFFFFFFFFFF03#64) writeBlock)
      = some (1#32, [0#8, 0#8, 0#8, 3#8], true, [.drive true]) := by decide
theorem test_write_invalid_two :
    after (exec (.writeInvalid 2#64 1 0xFF#64) writeBlock)
      = some (1#32, [0#8, 0#8, 0#8, 0#8], false, [.log (.invalidWrite 2#64 1 0xFF#64)]) := by decide
theorem test_write_invalid_end :
    after (exec (.writeInvalid 8#64 4 3#64) writeBlock)
      = some (1#32, [0#8, 0#8, 0#8, 0#8], false, [.log (.invalidWrite 8#64 4 3#64)]) := by decide

/-! ### Update engine (95_test_vectors.md §2.4) -/

theorem test_aggregate_reserved_bits_do_not_enable : aggregate 0xFFFFFFFE#32 [3#8, 3#8] = false := by decide
theorem test_aggregate_unused_bits_ignored : aggregate 1#32 [0xFD#8, 0xFE#8] = false := by decide
theorem test_aggregate_last_of_64 : aggregate 1#32 (List.replicate 63 0#8 ++ [3#8]) = true := by decide

/-! ### LINE_EVENT (95_test_vectors.md §2.5: status 1, lines 02 00 FC 00) -/

def eventBlock : State := block 1#32 [0x02#8, 0x00#8, 0xFC#8, 0x00#8] []

theorem test_line_event_asserts :
    after (exec (.lineEvent 0#64 true) eventBlock)
      = some (1#32, [0x03#8, 0x00#8, 0xFC#8, 0x00#8], true, [.drive true]) := by decide
theorem test_line_event_not_enabled :
    after (exec (.lineEvent 2#64 true) eventBlock)
      = some (1#32, [0x02#8, 0x00#8, 0xFD#8, 0x00#8], false, [.drive false]) := by decide
theorem test_line_event_unchanged_still_drives :
    after (exec (.lineEvent 3#64 false) eventBlock)
      = some (1#32, [0x02#8, 0x00#8, 0xFC#8, 0x00#8], false, [.drive false]) := by decide
theorem test_line_event_faults :
    faultOf (exec (.lineEvent 4#64 true) eventBlock)
      = some (.invalidInputLine 4#64 { eventBlock with faultMark := .invalidInputLine 4#64 }) := by decide

/-! ### Debug control (95_test_vectors.md §2.6: status 1, lines 00 01 02 FF) -/

def debugBlock : State := block 1#32 [0x00#8, 0x01#8, 0x02#8, 0xFF#8] []

theorem test_set_irq :
    after (exec (.dbgSet 2#64) debugBlock) = some (1#32, [0x00#8, 0x01#8, 0x03#8, 0xFF#8], true, [.drive true]) := by
  decide
theorem test_set_irq_end : nextOf (exec (.dbgSet 4#64) debugBlock) = some debugBlock := by decide
theorem test_clear_irq :
    after (exec (.dbgClear 3#64) debugBlock) = some (1#32, [0x00#8, 0x01#8, 0x02#8, 0xFE#8], false, [.drive false]) := by
  decide
theorem test_clear_irq_most_negative : nextOf (exec (.dbgClear 0x8000000000000000#64) debugBlock) = some debugBlock := by
  decide
theorem test_enable_irq :
    after (exec (.dbgEnable 1#64) debugBlock) = some (1#32, [0x00#8, 0x03#8, 0x02#8, 0xFF#8], true, [.drive true]) := by
  decide
theorem test_enable_irq_minus_one : nextOf (exec (.dbgEnable 0xFFFFFFFFFFFFFFFF#64) debugBlock) = some debugBlock := by
  decide
theorem test_disable_irq :
    after (exec (.dbgDisable 3#64) debugBlock) = some (1#32, [0x00#8, 0x01#8, 0x02#8, 0xFD#8], false, [.drive false]) := by
  decide
theorem test_disable_irq_most_positive :
    nextOf (exec (.dbgDisable 0x7FFFFFFFFFFFFFFF#64) debugBlock) = some debugBlock := by decide

/-! ### Steps -/

-- Program P4, last two rows: after the fault no step; program P5: a reserved op is refused.
theorem test_step_after_fault :
    faultOf (step { eventBlock with faultMark := .invalidInputLine 4#64, program := [scriptRd 0#64 4] })
      = some (.halted { eventBlock with faultMark := .invalidInputLine 4#64, program := [scriptRd 0#64 4] }) := by decide
theorem test_step_refused :
    refusalOf (step (block 1#32 [0#8] [descriptorOf 0x0008#16 0#64 0#64])) = some (.descriptor .reservedOp) := by decide
-- The first row of program P1 with the default N: enable-irq 2 from reset.
theorem test_step_first_after_reset :
    (nextOf (step (State.reset.withFetchWord 144 (0x0006 + 2 ^ 16 * 2)))).map (fun t => (t.lines[2]?, t.trace, t.position))
      = some (some 0x02#8, [.drive false], 1) := by decide
theorem test_table_word : decodeTableWord 16 0x0103 = some (.lineEvent 0#64 true) := by decide
-- 92_eei_decisions.md D6, a one-byte read of the status word behind a truncating bus and behind another.
theorem test_requester_truncated : requesterData true 1 0x80000101#64 = 0x01#64 := by decide
theorem test_requester_whole : requesterData false 1 0x80000101#64 = 0x80000101#64 := by decide

/-! ### Witnesses: concrete states and operands that meet the hypotheses of each statement -/

theorem witness_DecodeOfEncodeIsIdentity :
    (Instr.readLine 4#64 4).wf cfg4 = true ∧ (Instr.readLine 7#64 1).wf cfg4 = true
    ∧ (Instr.readOverrun 4#64 8).wf cfg4 = true ∧ (Instr.readOverrun 7#64 2).wf cfg4 = true
    ∧ (Instr.readInvalid 1#64 1).wf cfg4 = true ∧ (Instr.writeInvalid 8#64 8 5#64).wf cfg4 = true
    ∧ (Instr.writeLine 7#64 8 5#64).wf cfg4 = true ∧ (Instr.lineEvent 9#64 true).wf cfg4 = true := by decide

theorem witness_EncodeOfDecodeIsIdentity :
    decode cfg4 (descriptorOf 0x0103#16 3#64 0#64) = .instr (.lineEvent 3#64 true) := by decide

theorem witness_HeaderPatternSelectsOneOperation :
    decode cfg4 (descriptorOf 0x0081#16 0#64 0#64) = .instr (.readStatus 8) := by decide

/-- A block presented a refused descriptor; and one whose descriptor is an operation. -/
theorem witness_DescriptorRefusedExactlyOnSixGrounds :
    (block 1#32 [0#8] [descriptorOf 0x0008#16 0#64 0#64]).faultMark = .none
    ∧ (block 1#32 [0#8] [descriptorOf 0x0008#16 0#64 0#64]).program[0]? = some (descriptorOf 0x0008#16 0#64 0#64)
    ∧ decode (block 1#32 [0#8] []).config (descriptorOf 0x0008#16 0#64 0#64) = .refuse .reservedOp
    ∧ decode (block 1#32 [0#8] []).config (descriptorOf 0x0011#16 0#64 0#64) = .instr (.readStatus 1) := by decide

/-- A block of one line that is presented two operations: line 0 asserted, then an event on a line that does not exist. -/
def stepBlock : State := block 1#32 [0x02#8] [scriptLine 0#64 true, scriptLine 1#64 true]

def stepBlockNext : State :=
  { stepBlock with lines := [0x03#8], irqOut := true, trace := [.drive true], position := 1 }

theorem witness_step : step stepBlock = .next stepBlockNext := eq_next_of_nextOf (by decide)

theorem witness_StepRunsTheDecodedOperation :
    stepBlock.faultMark = .none ∧ stepBlock.program[stepBlock.position]? = some (scriptLine 0#64 true)
    ∧ decode stepBlock.config (scriptLine 0#64 true) = .instr (.lineEvent 0#64 true)
    ∧ exec (.lineEvent 0#64 true) stepBlock = .next { stepBlockNext with position := 0 }
    ∧ decode stepBlockNext.config (scriptLine 1#64 true) = .instr (.lineEvent 1#64 true)
    ∧ exec (.lineEvent 1#64 true) stepBlockNext
        = .fault (.invalidInputLine 1#64 { stepBlockNext with faultMark := .invalidInputLine 1#64 }) :=
  ⟨by decide, by decide, by decide, eq_next_of_nextOf (by decide), by decide, eq_fault_of_faultOf (by decide)⟩

theorem witness_NothingPresentedLeavesTheState :
    State.reset.faultMark = .none ∧ State.reset.program.length ≤ State.reset.position
    ∧ stepBlock.program.length ≤ ({ stepBlock with position := 2 } : State).position := by decide

theorem witness_FaultMarkSetOnlyByInvalidLineEvent :
    exec (.dbgSet 0#64) stepBlock = .next { stepBlockNext with position := 0 }
    ∧ exec (.lineEvent 1#64 true) stepBlock
        = .fault (.invalidInputLine 1#64 { stepBlock with faultMark := .invalidInputLine 1#64 })
    ∧ ({ stepBlock with faultMark := .invalidInputLine 1#64 } : State).faultMark ≠ .none :=
  ⟨eq_next_of_nextOf (by decide), eq_fault_of_faultOf (by decide), by decide⟩

theorem witness_ConstructionZeroesEveryRegister :
    Config.standard.wf = true ∧ ({ numIrqs := 1, accessSizes := [] } : Config).wf = true
    ∧ ({ numIrqs := 2 ^ 64 - 4, accessSizes := [1, 8] } : Config).wf = true := by decide

theorem witness_ConstructionAdmitsExactlyLegalParameters :
    construct { numIrqs := 0, accessSizes := [1] } = .refused .configuration
    ∧ construct { numIrqs := 1, accessSizes := [8] } = .next (State.ofConfig { numIrqs := 1, accessSizes := [8] }) :=
  ⟨rfl, eq_next_of_nextOf (by decide)⟩

theorem witness_UpdateEngineRunsExactlyOnce :
    exec (.dbgSet 0#64) stepBlock = .next { stepBlockNext with position := 0 }
    ∧ runsUpdateEngine stepBlock.lines.length (.dbgSet 0#64) = true
    ∧ exec (.dbgSet 1#64) stepBlock = .next stepBlock
    ∧ runsUpdateEngine stepBlock.lines.length (.dbgSet 1#64) = false
    ∧ exec (.lineEvent 1#64 false) stepBlock
        = .fault (.invalidInputLine 1#64 { stepBlock with faultMark := .invalidInputLine 1#64 }) :=
  ⟨eq_next_of_nextOf (by decide), by decide, eq_next_of_nextOf (by decide), by decide, eq_fault_of_faultOf (by decide)⟩

/-- Clearing the global enable while a line is effective. -/
theorem witness_GlobalDisableAlwaysDeasserts :
    exec (.writeStatus 4 0#64) (block 1#32 [0x03#8] [])
        = .next { block 0#32 [0x03#8] [] with irqOut := false, trace := [.drive false] }
    ∧ runsUpdateEngine 1 (.writeStatus 4 0#64) = true ∧ (0#32).getLsbD 0 = false
    ∧ (block 1#32 [0x03#8] []).irqOut = true :=
  ⟨eq_next_of_nextOf (by decide), by decide, by decide, by decide⟩

theorem witness_StepKeepsOutputEqualToAggregate :
    stepBlock.irqOut = aggregate stepBlock.status stepBlock.lines ∧ step stepBlock = .next stepBlockNext :=
  ⟨rfl, witness_step⟩

theorem witness_StepKeepsOutputEqualToLastDrive :
    stepBlock.irqOut = lastDriven stepBlock.trace ∧ step stepBlock = .next stepBlockNext := ⟨by decide, witness_step⟩

theorem witness_StepKeepsInvariant : BlockInv stepBlock ∧ step stepBlock = .next stepBlockNext :=
  ⟨by unfold BlockInv; decide, witness_step⟩

theorem witness_StepKeepsConfiguration : step stepBlock = .next stepBlockNext := witness_step

/-- A run of one step that completes, and of two that ends in a fault, from construction with two lines. -/
theorem witness_OutputIsAggregateOnEveryRun :
    (∃ t, Host.Core.run Sys2Proof.core 1
        (presentAll [scriptEnableIrq 0, scriptLine 2#64 true] (State.ofConfig { numIrqs := 2, accessSizes := [1] }))
      = .next t)
    ∧ ∃ f, Host.Core.run Sys2Proof.core 2
        (presentAll [scriptEnableIrq 0, scriptLine 2#64 true] (State.ofConfig { numIrqs := 2, accessSizes := [1] }))
      = .fault f := by
  have h1 : step (presentAll [scriptEnableIrq 0, scriptLine 2#64 true]
      (State.ofConfig { numIrqs := 2, accessSizes := [1] })) = .next _ := eq_next_of_nextOf rfl
  refine ⟨⟨_, run_succ_next h1⟩, ⟨_, (run_succ_next h1).trans (run_succ_fault (eq_fault_of_faultOf rfl))⟩⟩

/-- First and last line, first and last size. -/
theorem witness_ReadLinePacksLittleEndian :
    (4 ≤ (4#64).toNat ∧ (4#64).toNat < 4 + readBlock.lines.length ∧ ((4#64).toNat - 4) + 4 ≤ readBlock.lines.length)
    ∧ (4 ≤ (7#64).toNat ∧ (7#64).toNat < 4 + readBlock.lines.length ∧ ((7#64).toNat - 4) + 1 ≤ readBlock.lines.length)
    ∧ readBlock.lines[(4#64).toNat - 4 + 3]? = some 0x02#8 := by decide

theorem witness_ReadOverrunReturnsZero :
    (4 ≤ (4#64).toNat ∧ (4#64).toNat < 4 + readBlock.lines.length ∧ readBlock.lines.length < ((4#64).toNat - 4) + 8)
    ∧ (4 ≤ (7#64).toNat ∧ (7#64).toNat < 4 + readBlock.lines.length
      ∧ readBlock.lines.length < ((7#64).toNat - 4) + 2) := by decide

/-- The bounds of the two ranges of invalid offsets, for reads and for writes: 1, 3, `4 + N` and the largest. -/
theorem witness_ReadInvalidReturnsZero :
    ((1#64 : Word) = 1#64) ∧ ((3#64 : Word) = 3#64) ∧ 4 + readBlock.lines.length ≤ (8#64).toNat
    ∧ 4 + readBlock.lines.length ≤ (0xFFFFFFFFFFFFFFFF#64).toNat := by decide

theorem witness_WriteInvalidOnlyLogs :
    ((2#64 : Word) = 2#64) ∧ 4 + writeBlock.lines.length ≤ (8#64).toNat := by decide

theorem witness_WriteLineWritesExactlyOneByte :
    (4 ≤ (4#64).toNat ∧ (4#64).toNat < 4 + writeBlock.lines.length)
    ∧ (4 ≤ (7#64).toNat ∧ (7#64).toNat < 4 + writeBlock.lines.length) := by decide

theorem witness_BusReadsChangeNoState :
    (Instr.readStatus 4).opCode = .busRead ∧ (Instr.readOverrun 4#64 8).opCode = .busRead := by decide

theorem witness_BusAccessesAlwaysComplete :
    (Instr.readLine 4#64 1).opCode = .busRead ∧ (Instr.writeInvalid 1#64 1 0#64).opCode = .busWrite
    ∧ exec (.lineEvent 1#64 true) stepBlock
        = .fault (.invalidInputLine 1#64 { stepBlock with faultMark := .invalidInputLine 1#64 }) :=
  ⟨by decide, by decide, eq_fault_of_faultOf (by decide)⟩

theorem witness_LogEventsExactlyForInvalidAccesses :
    exec (.writeInvalid 2#64 1 0xFF#64) writeBlock
        = .next { writeBlock with trace := [.log (.invalidWrite 2#64 1 0xFF#64)] }
    ∧ exec (.lineEvent 1#64 true) stepBlock
        = .fault (.invalidInputLine 1#64 { stepBlock with faultMark := .invalidInputLine 1#64 }) :=
  ⟨eq_next_of_nextOf (by decide), eq_fault_of_faultOf (by decide)⟩

theorem witness_RepeatedAccessesAreIdempotent :
    (Instr.readLine 4#64 1).opCode = .busRead ∧ (Instr.writeLine 4#64 1 3#64).opCode = .busWrite
    ∧ runsUpdateEngine writeBlock.lines.length (.writeLine 4#64 1 3#64) = true
    ∧ runsUpdateEngine writeBlock.lines.length (.writeStatus 1 3#64) = true := by decide

theorem witness_LineReadAfterWriteReturnsWrittenByte :
    (4 ≤ (5#64).toNat ∧ (5#64).toNat < 4 + readBlock.lines.length ∧ 1 ≤ 2
      ∧ ((5#64).toNat - 4) + 2 ≤ readBlock.lines.length ∧ readBlock.lines[(5#64).toNat - 4 + 1]? = some 0xFE#8)
    ∧ (4 ≤ (7#64).toNat ∧ (7#64).toNat < 4 + readBlock.lines.length ∧ ((7#64).toNat - 4) + 1 ≤ readBlock.lines.length) := by
  decide

theorem witness_ZeroWritesRestoreResetRegisters : readBlock.lines.length + 4 ≤ 2 ^ 64 := by decide

theorem witness_LineEventWritesActive :
    eventBlock.lines[(0#64).toNat]? = some 0x02#8 ∧ eventBlock.lines[(3#64).toNat]? = some 0x00#8
    ∧ eventBlock.lines.length ≤ (4#64).toNat := by decide

theorem witness_InvalidLineEventFaultsForGood :
    eventBlock.lines.length ≤ (4#64).toNat ∧ eventBlock.lines.length ≤ (0xFFFFFFFFFFFFFFFF#64).toNat := by decide

theorem witness_LineEventTouchesOnlyItsActiveBit :
    exec (.lineEvent 0#64 true) stepBlock = .next { stepBlockNext with position := 0 }
    ∧ stepBlock.lines[0]? = some 0x02#8 ∧ stepBlockNext.lines[0]? = some 0x03#8 :=
  ⟨eq_next_of_nextOf (by decide), by decide, by decide⟩

/-- One step whose only operation, an event on line 1, does not write line 0's ACTIVE, which is set. -/
theorem witness_ActiveBitPersistsUnlessWritten :
    (∃ t, Host.Core.run Sys2Proof.core 1 (block 0#32 [0x01#8, 0x00#8] [scriptLine 1#64 true]) = .next t
      ∧ t.lines[0]? = some 0x01#8)
    ∧ decode (block 0#32 [0x01#8, 0x00#8] []).config (scriptLine 1#64 true) = .instr (.lineEvent 1#64 true)
    ∧ writesActive 2 0 (.lineEvent 1#64 true) = false :=
  ⟨⟨_, run_succ_next (eq_next_of_nextOf rfl), by decide⟩, by decide, by decide⟩

theorem witness_LineEventOverwritesDebugActive :
    (0#64).toNat < stepBlock.lines.length ∧ (0#64).toNat < 2 ^ 63 := by decide

/-- The four bounds of an invalid index: -1, the most negative, `N`, the most positive. -/
theorem witness_InvalidDebugIndexIsSilentNoOp :
    (0xFFFFFFFFFFFFFFFF#64).toInt < 0 ∧ (0x8000000000000000#64).toInt < 0
    ∧ (debugBlock.lines.length : Int) ≤ (4#64).toInt
    ∧ (debugBlock.lines.length : Int) ≤ (0x7FFFFFFFFFFFFFFF#64).toInt := by decide

/-- First and last line, for the four debug operations and for the pairs. -/
theorem witness_debug_valid :
    ((0#64).toInt = (0 : Nat) ∧ debugBlock.lines[0]? = some 0x00#8)
    ∧ ((3#64).toInt = (3 : Nat) ∧ debugBlock.lines[3]? = some 0xFF#8) := by decide

theorem witness_DebugSetSetsActive :
    (3#64).toInt = (3 : Nat) ∧ debugBlock.lines[3]? = some 0xFF#8 ∧ (debugBlock.lines.length : Int) ≤ (4#64).toInt := by
  decide
theorem witness_DebugClearClearsActive :
    (3#64).toInt = (3 : Nat) ∧ debugBlock.lines[3]? = some 0xFF#8 ∧ (0xFFFFFFFFFFFFFFFF#64).toInt < 0 := by decide
theorem witness_DebugEnableSetsEnabled :
    (1#64).toInt = (1 : Nat) ∧ debugBlock.lines[1]? = some 0x01#8 ∧ (0xFFFFFFFFFFFFFFFF#64).toInt < 0 := by decide
theorem witness_DebugDisableClearsEnabled :
    (0#64).toInt = (0 : Nat) ∧ debugBlock.lines[0]? = some 0x00#8 ∧ (debugBlock.lines.length : Int) ≤ (4#64).toInt := by
  decide
theorem witness_DebugPairsTouchOnlyTheirBit : (2#64).toInt = (2 : Nat) ∧ debugBlock.lines[2]? = some 0x02#8 := by decide

theorem witness_OperationsWriteOnlyTheirColumns :
    exec (.lineEvent 0#64 true) stepBlock = .next { stepBlockNext with position := 0 }
    ∧ writesStatus (.lineEvent 0#64 true) = false ∧ writesActive 1 0 (.lineEvent 0#64 true) = true
    ∧ writesEnabled 1 0 (.lineEvent 0#64 true) = false ∧ writesWholeLine 1 0 (.lineEvent 0#64 true) = false
    ∧ stepBlock.lines[0]? = some 0x02#8 ∧ stepBlockNext.lines[0]? = some 0x03#8 :=
  ⟨eq_next_of_nextOf (by decide), by decide, by decide, by decide, by decide, by decide, by decide⟩

/-- Two blocks with different reserved bits in the status word and in both lines. -/
theorem witness_ReservedBitsNeverMatter :
    SameControl (block 0x1#32 [0x02#8, 0x01#8] [scriptLine 0#64 true])
      (block 0xFFFFFFFF#32 [0xFE#8, 0x41#8] [scriptLine 0#64 true])
    ∧ (Instr.writeStatus 4 0xFFFFFFFF#64).opCode = .busWrite := by unfold SameControl; decide

theorem witness_EnableOrderDoesNotMatter :
    (1#64).toInt = (1 : Nat) ∧ debugBlock.lines[1]? = some 0x01#8 ∧ (1#64).getLsbD 0 = true
    ∧ (0x01#8).getLsbD 0 = true := by decide

/-- Runs that end cleanly, in a fault and in a refusal (programs P4 and P5 of 95_test_vectors.md, cut short). -/
theorem witness_StoppedRunIgnoresLaterDescriptors :
    runEnd { numIrqs := 2, accessSizes := [4] } [scriptLine 2#64 true]
      = .faulted (.invalidInputLine 2#64)
          { status := 0#32, lines := [0#8, 0#8], irqOut := false, reads := [], drives := [] }
    ∧ runEnd cfg4 [scriptWr 0#64 4 1#64, descriptorOf 0x0008#16 0#64 0#64]
      = .refused (.descriptor .reservedOp)
          { status := 1#32, lines := [0#8, 0#8, 0#8, 0#8], irqOut := false, reads := [], drives := [false] } := by
  decide

theorem witness_RunIsCleanExactlyWhenAllAdmitted :
    runEnd cfg4 [scriptWr 0#64 4 1#64]
      = .clean { status := 1#32, lines := [0#8, 0#8, 0#8, 0#8], irqOut := false, reads := [], drives := [false] } := by
  decide

end Sys2Proof.Tests
end

section
/-! PROOFS. Steps of a block without fault mark (00_scope.md R8, 20_memory.md R51). -/

namespace Sys2Proof.Machine

theorem isHalted_eq_false {s : State} (hm : s.faultMark = .none) : isHalted s = false := by
  simp [isHalted, hm]

/-- The equation of `step` at a descriptor that spells an operation; `advanceOutcome` then tells the ends apart. -/
theorem step_of_decode {s : State} {d : Descriptor} {i : Instr} (hm : s.faultMark = .none)
    (hf : s.program[s.position]? = some d) (hd : decode s.config d = .instr i) :
    step s = advanceOutcome (exec i s) := by
  have hfetch : fetch s = some d := hf
  simp [step, isHalted_eq_false hm, hfetch, hd]

/-- Settles O6, by the equation of `step` and one equation of `advanceOutcome` for each end of `exec`. -/
theorem stepRunsTheDecodedOperation : Obligations.StepRunsTheDecodedOperation := by
  intro s d i hm hf hd
  have hstep : step s = advanceOutcome (exec i s) := step_of_decode hm hf hd
  refine ⟨fun t ht => ?next, fun f hfault => ?fault⟩
  case next => rw [hstep, ht]; rfl
  case fault => rw [hstep, hfault]; rfl

end Sys2Proof.Machine
end

section
/-! PROOFS. The frame of an operation that completes, and the equations of `step` beside `step_of_decode`
(10_state.md R24, R27, R31). -/

namespace Sys2Proof.Machine

/-! ### What every operation that completes keeps -/

theorem Change.sameHost {i : Instr} {s t : State} (h : Change i s t) : SameHost s t := by
  cases h <;> exact ⟨rfl, rfl, rfl, rfl⟩

theorem Change.lines_length {i : Instr} {s t : State} (h : Change i s t) : t.lines.length = s.lines.length := by
  cases h with
  | line j f hi hj => simp
  | read | status | logged | nothing => rfl

/-- R105 for one operation: a register changes only together with a run of the update engine (R103). -/
theorem Change.irqOut_eq_aggregate {i : Instr} {s t : State} (h : Change i s t)
    (hs : s.irqOut = aggregate s.status s.lines) : t.irqOut = aggregate t.status t.lines := by
  cases h with
  | status | line => rfl
  | read | logged | nothing => exact hs

/-! ### The remaining equations of `step` -/

theorem step_of_faultMark {s : State} (hm : s.faultMark ≠ .none) : step s = .fault (.halted s) := by
  simp [step, isHalted, hm]

theorem step_of_nothing {s : State} (hm : s.faultMark = .none) (hf : s.program[s.position]? = none) :
    step s = .next s := by
  have hfetch : fetch s = none := hf
  simp [step, isHalted_eq_false hm, hfetch, idle]

theorem step_of_refuse {s : State} {d : Descriptor} {r : DescriptorRefusal} (hm : s.faultMark = .none)
    (hf : s.program[s.position]? = some d) (hd : decode s.config d = .refuse r) :
    step s = .refused (.descriptor r) := by
  have hfetch : fetch s = some d := hf
  simp [step, isHalted_eq_false hm, hfetch, hd]

/-! ### The frame and the faults of one step -/

/-- R24: `N`, the admitted sizes and the host's sequence are constant, and the position is the old one or the next. -/
theorem step_frame {s t : State} (h : step s = .next t) :
    t.lines.length = s.lines.length ∧ t.accessSizes = s.accessSizes ∧ t.program = s.program
      ∧ s.position ≤ t.position ∧ t.position ≤ s.position + 1 := by
  obtain ⟨-, ⟨-, rfl⟩ | ⟨d, i, u, -, -, he, rfl⟩⟩ := step_next_cases h
  · exact ⟨rfl, rfl, rfl, by omega, by omega⟩
  · have hc : Change i s u := exec_next_change he
    obtain ⟨hsizes, -, hprogram, hposition⟩ := hc.sameHost
    exact ⟨hc.lines_length, hsizes, hprogram, by simp [hposition], by simp [hposition]⟩

theorem step_config {s t : State} (h : step s = .next t) : t.config = s.config := by
  obtain ⟨hlines, hsizes, -, -, -⟩ := step_frame h
  simp [State.config, hlines, hsizes]

theorem step_faultMark {s t : State} (h : step s = .next t) : t.faultMark = .none := by
  obtain ⟨hm, ⟨-, rfl⟩ | ⟨d, i, u, -, -, he, rfl⟩⟩ := step_next_cases h
  · exact hm
  · obtain ⟨-, hmark, -, -⟩ := (exec_next_change he).sameHost
    exact hmark.trans hm

/-- A descriptor is applied only where there is one, so the position does not leave the host's sequence. -/
theorem step_position_le {s t : State} (h : step s = .next t) (hp : s.position ≤ s.program.length) :
    t.position ≤ t.program.length := by
  obtain ⟨-, ⟨-, rfl⟩ | ⟨d, i, u, hf, -, he, rfl⟩⟩ := step_next_cases h
  · exact hp
  · obtain ⟨-, -, hprogram, hposition⟩ := (exec_next_change he).sameHost
    obtain ⟨hlt, -⟩ := List.getElem?_eq_some_iff.mp hf
    rw [advance_position, advance_program, hprogram, hposition]
    exact hlt

theorem step_irqOut_eq_aggregate {s t : State} (hs : s.irqOut = aggregate s.status s.lines) (h : step s = .next t) :
    t.irqOut = aggregate t.status t.lines := by
  obtain ⟨-, ⟨-, rfl⟩ | ⟨d, i, u, -, -, he, rfl⟩⟩ := step_next_cases h
  · exact hs
  · exact (exec_next_change he).irqOut_eq_aggregate hs

/-- The inversion lemma of a step that faults: the block was halted already, or the operation presented is a LINE_EVENT
on a line that does not exist. -/
theorem step_fault_cases {s : State} {f : Fault} (h : step s = .fault f) :
    (s.faultMark ≠ .none ∧ f = .halted s)
    ∨ (s.faultMark = .none ∧ ∃ index, s.lines.length ≤ index.toNat ∧ f = raiseInvalidInputLine index s) := by
  by_cases hm : s.faultMark = .none
  · cases hf : s.program[s.position]? with
    | none => rw [step_of_nothing hm hf] at h; cases h
    | some d =>
      cases hd : decode s.config d with
      | refuse r => rw [step_of_refuse hm hf hd] at h; cases h
      | instr i =>
        rw [step_of_decode hm hf hd] at h
        obtain ⟨u, hu, -⟩ | ⟨index, level, -, hindex, hfault⟩ := exec_inversion i s
        · rw [hu] at h; cases h
        · rw [hfault] at h; cases h
          exact .inr ⟨hm, index, hindex, rfl⟩
  · rw [step_of_faultMark hm] at h; cases h
    exact .inl ⟨hm, rfl⟩

/-! ### Runs -/

/-- A property that every step keeps holds at the end of every run from a state that has it. -/
theorem run_next_of_step {P : State → Prop} (hstep : ∀ s t, P s → step s = .next t → P t) {k : Nat} {s t : State}
    (hs : P s) (h : Host.Core.run Sys2Proof.core k s = .next t) : P t := by
  induction k generalizing s with
  | zero => cases h; exact hs
  | succ k ih =>
    cases hu : step s with
    | next u => rw [run_succ_next hu] at h; exact ih (hstep s u hs hu) h
    | fault f => rw [run_succ_fault hu] at h; cases h
    | refused r => rw [run_succ_refused hu] at h; cases h

/-- And a run that faults does so in a step from a state that has it. -/
theorem run_fault_of_step {P : State → Prop} (hstep : ∀ s t, P s → step s = .next t → P t) {k : Nat} {s : State}
    {f : Fault} (hs : P s) (h : Host.Core.run Sys2Proof.core k s = .fault f) : ∃ u, P u ∧ step u = .fault f := by
  induction k generalizing s with
  | zero => cases h
  | succ k ih =>
    cases hu : step s with
    | next u => rw [run_succ_next hu] at h; exact ih (hstep s u hs hu) h
    | fault g => rw [run_succ_fault hu] at h; cases h; exact ⟨s, hs, hu⟩
    | refused r => rw [run_succ_refused hu] at h; cases h

end Sys2Proof.Machine
end

section
/-! PROOFS. Construction and the invariants of the state (10_state.md R24, R27, R32). -/

namespace Sys2Proof.Machine

/-! ### Construction (R32) -/

theorem construct_of_wf {c : Config} (hc : c.wf = true) : construct c = .next (State.ofConfig c) := by
  simp [construct, hc]

theorem config_standard_wf : Config.standard.wf = true := by decide

/-- With the status word 0 the global enable is clear, so nothing is asserted (R104). -/
theorem aggregate_zero (lines : List Byte) : aggregate 0#32 lines = false := by
  simp [aggregate]

theorem ofConfig_irqOut_eq_aggregate (c : Config) :
    (State.ofConfig c).irqOut = aggregate (State.ofConfig c).status (State.ofConfig c).lines :=
  (aggregate_zero _).symm

theorem ofConfig_blockInv {c : Config} (hc : c.wf = true) : BlockInv (State.ofConfig c) := by
  refine ⟨?config, ofConfig_irqOut_eq_aggregate c, rfl, Nat.le_refl 0⟩
  case config => rw [ofConfig_config]; exact hc

/-! ### The obligations -/

/-- Settles O17: each conjunct of the invariant has its lemma about one step. -/
theorem stepKeepsInvariant : Obligations.StepKeepsInvariant := by
  rintro s t ⟨hwf, hirq, -, hpos⟩ h
  refine ⟨?config, step_irqOut_eq_aggregate hirq h, step_faultMark h, step_position_le h hpos⟩
  case config => rw [step_config h]; exact hwf

/-- Settles O8: `exec_inversion` names the one operation that faults, and `step_of_faultMark` is the last part. -/
theorem faultMarkSetOnlyByInvalidLineEvent : Obligations.FaultMarkSetOnlyByInvalidLineEvent := by
  refine ⟨fun c => rfl, ?completed, fun i s f => ⟨?faults, ?invalid⟩, fun s => step_of_faultMark⟩
  case completed =>
    intro i s t h
    obtain ⟨-, hmark, -, -⟩ := (exec_next_change h).sameHost
    exact hmark
  case faults =>
    intro h
    obtain ⟨t, ht, -⟩ | ⟨index, level, hi, hindex, hfault⟩ := exec_inversion i s
    · rw [ht] at h; cases h
    · rw [hfault] at h; cases h
      exact ⟨index, level, hi, hindex, rfl⟩
  case invalid =>
    rintro ⟨index, level, rfl, hindex, rfl⟩
    exact execLineEvent_invalid level hindex

/-- Settles O15, by the step lemma along the run; a fault changes no register and drives nothing (R112). -/
theorem outputIsAggregateOnEveryRun : Obligations.OutputIsAggregateOnEveryRun := by
  intro c ds k
  have hstep : ∀ s t : State, s.irqOut = aggregate s.status s.lines → step s = .next t →
      t.irqOut = aggregate t.status t.lines := fun _ _ => step_irqOut_eq_aggregate
  have hstart : (presentAll ds (State.ofConfig c)).irqOut
      = aggregate (presentAll ds (State.ofConfig c)).status (presentAll ds (State.ofConfig c)).lines :=
    ofConfig_irqOut_eq_aggregate c
  refine ⟨fun t h => run_next_of_step hstep hstart h, fun f h => ?fault⟩
  case fault =>
    obtain ⟨u, hu, hf⟩ := run_fault_of_step hstep hstart h
    obtain ⟨-, rfl⟩ | ⟨-, index, -, rfl⟩ := step_fault_cases hf
    · exact hu
    · exact hu

/-- Settles O19, the frame of one step. -/
theorem stepKeepsConfiguration : Obligations.StepKeepsConfiguration :=
  fun _ _ => step_frame

/-- Settles O9, from the fields of the state that construction leaves. -/
theorem constructionZeroesEveryRegister : Obligations.ConstructionZeroesEveryRegister := by
  refine ⟨fun c hc => ⟨State.ofConfig c, construct_of_wf hc, rfl, ?count, fun j hj => ?zero, rfl, rfl, rfl⟩,
    construct_of_wf config_standard_wf, ?default⟩
  case count => rw [ofConfig_lines, List.length_replicate]
  case zero => rw [ofConfig_lines, List.getElem?_replicate_of_lt hj]
  case default => rw [State.reset, ofConfig_lines, List.length_replicate]; rfl

/-- Settles O18: reset is construction with the default parameters, and no drive is recorded yet. -/
theorem resetMeetsInvariants : Obligations.ResetMeetsInvariants :=
  ⟨ofConfig_blockInv config_standard_wf, rfl, fun _ => ofConfig_blockInv⟩

end Sys2Proof.Machine
end

section
/-! PROOFS. Noninterference of the recorded outputs (10_state.md R28): each operation of the state commutes with events
put before the trace. -/

namespace Sys2Proof.Machine

/-! ### Outputs and registers -/

theorem emit_afterTrace (pre : List Event) (e : Event) (s : State) :
    emit e (afterTrace pre s) = afterTrace pre (emit e s) := by
  simp [emit, afterTrace]

theorem respond_afterTrace (pre : List Event) (v : Word) (s : State) :
    respond v (afterTrace pre s) = afterTrace pre (respond v s) :=
  emit_afterTrace pre _ s

theorem logInvalid_afterTrace (pre : List Event) (e : LogEntry) (s : State) :
    logInvalid e (afterTrace pre s) = afterTrace pre (logInvalid e s) :=
  emit_afterTrace pre _ s

/-- The level driven is computed from the registers, not from the trace. -/
theorem recompute_afterTrace (pre : List Event) (s : State) :
    recompute (afterTrace pre s) = afterTrace pre (recompute s) :=
  emit_afterTrace pre _ { s with irqOut := aggregate s.status s.lines }

theorem recompute_updateLine_afterTrace (pre : List Event) (j : Nat) (f : Byte → Byte) (s : State) :
    recompute (updateLine j f (afterTrace pre s)) = afterTrace pre (recompute (updateLine j f s)) :=
  recompute_afterTrace pre (updateLine j f s)

/-! ### The three ports -/

theorem busRead_afterTrace (pre : List Event) (offset : Word) (size : Nat) (s : State) :
    busRead offset size (afterTrace pre s) = afterTrace pre (busRead offset size s) := by
  unfold busRead
  rw [afterTrace_lines]
  cases decodeRead s.lines.length offset size with
  | status => exact respond_afterTrace pre _ s
  | lines first count => exact respond_afterTrace pre _ s
  | overrun | invalid =>
    exact (congrArg (respond 0#64) (logInvalid_afterTrace pre _ s)).trans (respond_afterTrace pre _ _)

theorem busWrite_afterTrace (pre : List Event) (offset : Word) (size : Nat) (value : Word) (s : State) :
    busWrite offset size value (afterTrace pre s) = afterTrace pre (busWrite offset size value s) := by
  unfold busWrite
  rw [afterTrace_lines]
  cases decodeWrite s.lines.length offset with
  | status => exact recompute_afterTrace pre (setStatus (statusOfData value) s)
  | line index => exact recompute_updateLine_afterTrace pre index _ s
  | invalid => exact logInvalid_afterTrace pre _ s

theorem debugUpdate_afterTrace (pre : List Event) (index : Word) (f : Byte → Byte) (s : State) :
    debugUpdate index f (afterTrace pre s) = afterTrace pre (debugUpdate index f s) := by
  unfold debugUpdate
  rw [afterTrace_lines]
  split
  · exact recompute_updateLine_afterTrace pre _ f s
  · rfl

theorem execLineEvent_afterTrace (pre : List Event) (index : Word) (level : Bool) (s : State) :
    execLineEvent index level (afterTrace pre s) = afterTraceOutcome pre (execLineEvent index level s) := by
  by_cases h : index.toNat < s.lines.length
  · rw [execLineEvent_valid level h, execLineEvent_valid level (s := afterTrace pre s) h]
    exact congrArg _ (recompute_updateLine_afterTrace pre _ _ s)
  · have hle : s.lines.length ≤ index.toNat := Nat.le_of_not_lt h
    rw [execLineEvent_invalid level hle, execLineEvent_invalid level (s := afterTrace pre s) hle]
    rfl

/-! ### Operations and steps -/

theorem exec_afterTrace (pre : List Event) (i : Instr) (s : State) :
    exec i (afterTrace pre s) = afterTraceOutcome pre (exec i s) := by
  cases i with
  | readStatus | readLine | readOverrun | readInvalid => exact congrArg _ (busRead_afterTrace pre _ _ s)
  | writeStatus | writeLine | writeInvalid => exact congrArg _ (busWrite_afterTrace pre _ _ _ s)
  | lineEvent index level => exact execLineEvent_afterTrace pre index level s
  | dbgSet | dbgClear | dbgEnable | dbgDisable => exact congrArg _ (debugUpdate_afterTrace pre _ _ s)

theorem advanceOutcome_afterTraceOutcome (pre : List Event) (o : Host.Outcome State Fault Refusal) :
    advanceOutcome (afterTraceOutcome pre o) = afterTraceOutcome pre (advanceOutcome o) := by
  cases o <;> rfl

/-- Settles O30, by the equations of `step`: mark, fetch and decoding do not read the trace, and `exec` commutes. -/
theorem recordedOutputsAreNeverRead : Obligations.RecordedOutputsAreNeverRead := by
  intro pre s
  by_cases hm : s.faultMark = .none
  · cases hf : s.program[s.position]? with
    | none => rw [step_of_nothing hm hf, step_of_nothing (s := afterTrace pre s) hm hf]; rfl
    | some d =>
      cases hd : decode s.config d with
      | refuse r => rw [step_of_refuse hm hf hd, step_of_refuse (s := afterTrace pre s) hm hf hd]; rfl
      | instr i =>
        rw [step_of_decode hm hf hd, step_of_decode (s := afterTrace pre s) hm hf hd, exec_afterTrace,
          advanceOutcome_afterTraceOutcome]
  · rw [step_of_faultMark hm, step_of_faultMark (s := afterTrace pre s) hm]; rfl

end Sys2Proof.Machine
end

section
/-! PROOFS. The bus accesses as functions of the registers (20_memory.md R49, R50), and the parameters that construction
admits (R46; 92_eei_decisions.md D8). -/

namespace Sys2Proof.Machine

/-! ### Every row of a bus operation is the port's own dispatch (40_register_access.md R80, R85) -/

theorem exec_of_busRead {i : Instr} (hi : i.opCode = .busRead) :
    ∃ (offset : Word) (size : Nat), ∀ s, exec i s = .next (busRead offset size s) := by
  cases i with
  | readStatus size => exact ⟨0#64, size, fun _ => rfl⟩
  | readLine offset size | readOverrun offset size | readInvalid offset size => exact ⟨offset, size, fun _ => rfl⟩
  | writeStatus | writeLine | writeInvalid | lineEvent | dbgSet | dbgClear | dbgEnable | dbgDisable => cases hi

/-- A write's offset also says whether it runs the update engine (41_update_engine.md R103). -/
theorem exec_of_busWrite {i : Instr} (hi : i.opCode = .busWrite) :
    ∃ (offset : Word) (size : Nat) (value : Word), (∀ s, exec i s = .next (busWrite offset size value s))
      ∧ ∀ n, runsUpdateEngine n i = true → offset.toNat = 0 ∨ (4 ≤ offset.toNat ∧ offset.toNat < 4 + n) := by
  cases i with
  | writeStatus size value => exact ⟨0#64, size, value, fun _ => rfl, fun _ _ => .inl rfl⟩
  | writeLine offset size value | writeInvalid offset size value =>
    refine ⟨offset, size, value, fun _ => rfl, fun n h => ?_⟩
    simpa [runsUpdateEngine, lineOffset] using h
  | readStatus | readLine | readOverrun | readInvalid | lineEvent | dbgSet | dbgClear | dbgEnable | dbgDisable =>
    cases hi

/-! ### Reads -/

/-- `busRead_spec` for all traces at once: the events of a read, its response among them, do not depend on what was
recorded before (`busRead_afterTrace`). -/
theorem busRead_of_trace (offset : Word) (size : Nat) (s : State) :
    ∃ (v : Word) (es : List Event), drivesOf es = [] ∧ readsOf es = [] ∧ ∀ trace : List Event,
      busRead offset size { s with trace := trace } = { s with trace := trace ++ es ++ [.readData v] } := by
  obtain ⟨v, es, hread, hes⟩ := busRead_spec offset size { s with trace := [] }
  have hany : ∀ trace : List Event,
      busRead offset size { s with trace := trace } = { s with trace := trace ++ es ++ [.readData v] } := by
    intro trace
    have hs : { s with trace := trace } = afterTrace trace { s with trace := [] } := by simp [afterTrace]
    rw [hs, busRead_afterTrace, hread]
    simp [afterTrace]
  obtain rfl | rfl := hes
  · exact ⟨v, [], rfl, rfl, hany⟩
  · exact ⟨v, [.log (.invalidRead offset size)], rfl, rfl, hany⟩

/-- Settles O27: every row is `busRead`. -/
theorem busReadsChangeNoState : Obligations.BusReadsChangeNoState := by
  intro i s hi
  obtain ⟨offset, size, hexec⟩ := exec_of_busRead hi
  obtain ⟨v, es, hdrives, hreads, hread⟩ := busRead_of_trace offset size s
  exact ⟨v, es, (hexec s).trans (congrArg _ (hread s.trace)), hdrives, hreads⟩

/-! ### Repeated writes -/

/-- With the output at the aggregate already, the update engine adds one drive of that level and nothing else. -/
theorem recompute_recompute (s : State) :
    recompute (recompute s)
      = { recompute s with trace := (recompute s).trace ++ [.drive (recompute s).irqOut] } := rfl

/-- A line register that was just overwritten takes the same byte again without a change. -/
theorem updateLine_const_recompute (j : Nat) (b : Byte) (s : State) :
    updateLine j (fun _ => b) (recompute (updateLine j (fun _ => b) s))
      = recompute (updateLine j (fun _ => b) s) := by
  have hlines : (s.lines.modify j fun _ => b).modify j (fun _ => b) = s.lines.modify j fun _ => b :=
    List.modify_modify_eq _ _ j s.lines
  simp [updateLine, recompute, drive, emit, hlines]

/-- The second of two equal writes at a valid offset only runs the update engine once more. -/
theorem busWrite_busWrite {s : State} {offset : Word} (size : Nat) (value : Word)
    (h : offset.toNat = 0 ∨ (4 ≤ offset.toNat ∧ offset.toNat < 4 + s.lines.length)) :
    ∃ u, busWrite offset size value s = recompute u
      ∧ busWrite offset size value (recompute u) = recompute (recompute u) := by
  obtain hzero | ⟨hlow, hhigh⟩ := h
  · obtain rfl : offset = 0#64 := BitVec.eq_of_toNat_eq hzero
    exact ⟨setStatus (statusOfData value) s, busWrite_status s size value, busWrite_status _ size value⟩
  · refine ⟨updateLine (offset.toNat - 4) (fun _ => byteOfData value) s, busWrite_line value hlow hhigh, ?_⟩
    rw [busWrite_line value hlow (by simpa using hhigh), wrLine, updateLine_const_recompute]

/-- Settles O31: a read changes only the trace, on which no response depends; a repeated write runs the update engine
once more, and `recompute_recompute` says what that adds. -/
theorem repeatedAccessesAreIdempotent : Obligations.RepeatedAccessesAreIdempotent := by
  refine ⟨fun i s hi => ?reads, fun i s hi hruns => ?writes⟩
  case reads =>
    obtain ⟨offset, size, hexec⟩ := exec_of_busRead hi
    obtain ⟨v, es, -, hreads, hread⟩ := busRead_of_trace offset size s
    have hresponse : ∀ trace, readsOf (trace ++ es ++ [.readData v]) = readsOf trace ++ [v] := by
      intro trace
      simp [hreads, readsOf]
    exact ⟨_, _, v, (hexec s).trans (congrArg _ (hread s.trace)), (hexec _).trans (congrArg _ (hread _)),
      hresponse _, hresponse _⟩
  case writes =>
    obtain ⟨offset, size, value, hexec, hvalid⟩ := exec_of_busWrite hi
    obtain ⟨u, hfirst, hsecond⟩ := busWrite_busWrite size value (hvalid _ hruns)
    exact ⟨recompute u, by rw [hexec, hfirst], by rw [hexec, hsecond, recompute_recompute]⟩

/-! ### The parameters that construction admits -/

theorem config_wf_iff (c : Config) :
    c.wf = true ↔ 1 ≤ c.numIrqs ∧ c.numIrqs + 4 ≤ 2 ^ 64 ∧ ∀ z ∈ c.accessSizes, 1 ≤ z ∧ z ≤ 8 := by
  simp only [Config.wf, Bool.and_eq_true, decide_eq_true_eq, List.all_eq_true, and_assoc]

theorem construct_of_not_wf {c : Config} (hc : ¬ c.wf = true) : construct c = .refused .configuration := by
  simp [construct, hc]

theorem exists_construct_next_iff (c : Config) : (∃ s, construct c = .next s) ↔ c.wf = true := by
  constructor
  · rintro ⟨s, hs⟩
    by_contra hc
    rw [construct_of_not_wf hc] at hs
    cases hs
  · exact fun hc => ⟨State.ofConfig c, construct_of_wf hc⟩

/-- Settles O10: construction succeeds exactly at the well-formed configurations, which `config_wf_iff` spells out. -/
theorem constructionAdmitsExactlyLegalParameters : Obligations.ConstructionAdmitsExactlyLegalParameters := by
  intro c
  rw [exists_construct_next_iff]
  exact ⟨config_wf_iff c, construct_of_not_wf⟩

end Sys2Proof.Machine
end

section
/-! PROOFS. The decoder and the encoder are inverse to each other (30_encoding.md R61 to R66): the fields of a descriptor
that is not refused, the row that they select, and the fields that the encoder writes. -/

namespace Sys2Proof

/-! ### Admitted fields (R62, R65) -/

/-- None of the six grounds of R65 holds: the fields spell the operation `op` in a block with configuration `c`. -/
structure Admitted (c : Config) (op : OpCode) (f : Fields) : Prop where
  code : f.op = opBits op
  reserved : f.reserved = 0#7
  busSize : isBusOp op = true → f.size.toNat ∈ c.accessSizes
  otherSize : isBusOp op = false → f.size = 0#4
  level : op ≠ .lineEvent → f.level = 0#1
  data : op ≠ .busWrite → f.v = 0#64

theorem opCodeOf_eq_some_iff {o : BitVec 4} {op : OpCode} : opCodeOf o = some op ↔ o = opBits op := by
  refine ⟨fun h => (opBits_of_opCodeOf h).symm, ?_⟩
  rintro rfl
  exact opCodeOf_opBits op

theorem opBits_injective {op op' : OpCode} (h : opBits op = opBits op') : op = op' := by
  have hsome : opCodeOf (opBits op) = some op' := opCodeOf_eq_some_iff.mpr h
  rw [opCodeOf_opBits] at hsome
  exact Option.some.inj hsome

/-- Grounds 2 to 6 of R65, whichever of them is named. -/
theorem fieldRefusal_ne_none_iff (c : Config) (op : OpCode) (f : Fields) :
    fieldRefusal c op f ≠ none ↔
      f.reserved ≠ 0#7
      ∨ (isBusOp op = true ∧ f.size.toNat ∉ c.accessSizes)
      ∨ (isBusOp op = false ∧ f.size ≠ 0#4)
      ∨ (op ≠ .lineEvent ∧ f.level ≠ 0#1)
      ∨ (op ≠ .busWrite ∧ f.v ≠ 0#64) := by
  have hmem : c.accessSizes.contains f.size.toNat = false ↔ f.size.toNat ∉ c.accessSizes := by simp
  simp only [fieldRefusal, hmem, ne_eq, ite_eq_iff, reduceCtorEq, and_false, false_or, and_true, not_and_or, not_or,
    not_not]

theorem admitted_iff {c : Config} {op : OpCode} {f : Fields} :
    Admitted c op f ↔ f.op = opBits op ∧ fieldRefusal c op f = none := by
  have hnone := (fieldRefusal_ne_none_iff c op f).not
  push Not at hnone
  rw [hnone]
  exact ⟨fun ⟨code, reserved, busSize, otherSize, level, data⟩ => ⟨code, reserved, busSize, otherSize, level, data⟩,
    fun ⟨code, reserved, busSize, otherSize, level, data⟩ => ⟨code, reserved, busSize, otherSize, level, data⟩⟩

/-! ### What the decoder answers -/

theorem decode_of_reservedOp {c : Config} {d : Descriptor} (h : opCodeOf (fieldsOf d).op = none) :
    decode c d = .refuse .reservedOp := by
  simp only [decode, h]

theorem decode_of_fieldRefusal {c : Config} {d : Descriptor} {op : OpCode} {r : DescriptorRefusal}
    (hop : (fieldsOf d).op = opBits op) (h : fieldRefusal c op (fieldsOf d) = some r) : decode c d = .refuse r := by
  simp only [decode, opCodeOf_eq_some_iff.mpr hop, h]

theorem decode_of_admitted {c : Config} {d : Descriptor} {op : OpCode} (h : Admitted c op (fieldsOf d)) :
    decode c d = .instr (instrOf c.numIrqs op (fieldsOf d)) := by
  obtain ⟨hop, hnone⟩ := admitted_iff.mp h
  simp only [decode, opCodeOf_eq_some_iff.mpr hop, hnone]

/-- The inversion lemma of `decode`: a descriptor is refused on one of R65's grounds, or its fields are admitted. -/
theorem decode_cases (c : Config) (d : Descriptor) :
    (opCodeOf (fieldsOf d).op = none ∧ decode c d = .refuse .reservedOp)
    ∨ (∃ op r, (fieldsOf d).op = opBits op ∧ fieldRefusal c op (fieldsOf d) = some r ∧ decode c d = .refuse r)
    ∨ (∃ op, Admitted c op (fieldsOf d) ∧ decode c d = .instr (instrOf c.numIrqs op (fieldsOf d))) := by
  cases hcode : opCodeOf (fieldsOf d).op with
  | none => exact .inl ⟨rfl, decode_of_reservedOp hcode⟩
  | some op =>
    have hop : (fieldsOf d).op = opBits op := opCodeOf_eq_some_iff.mp hcode
    cases hfields : fieldRefusal c op (fieldsOf d) with
    | some r => exact .inr (.inl ⟨op, r, hop, hfields, decode_of_fieldRefusal hop hfields⟩)
    | none =>
      have hadm : Admitted c op (fieldsOf d) := admitted_iff.mpr ⟨hop, hfields⟩
      exact .inr (.inr ⟨op, hadm, decode_of_admitted hadm⟩)

theorem admitted_of_decode {c : Config} {d : Descriptor} {i : Instr} (h : decode c d = .instr i) :
    ∃ op, Admitted c op (fieldsOf d) ∧ i = instrOf c.numIrqs op (fieldsOf d) := by
  obtain ⟨-, hd⟩ | ⟨op, r, -, -, hd⟩ | ⟨op, hadm, hd⟩ := decode_cases c d <;> rw [hd] at h <;> cases h
  exact ⟨op, hadm, rfl⟩

/-! ### The rows of a bus operation (R66, R80, R85) -/

/-! Five rows restrict the offset; each is well-formed exactly under its `select` condition in the opcode table. -/

theorem sizeWf_iff (c : Config) (size : Nat) : sizeWf c size = true ↔ size ∈ c.accessSizes ∧ size < 16 := by
  simp [sizeWf]

theorem readLine_wf_iff {c : Config} {offset : Word} {size : Nat} :
    (Instr.readLine offset size).wf c = true ↔
      sizeWf c size = true ∧ 4 ≤ offset.toNat ∧ offset.toNat < 4 + c.numIrqs
        ∧ (offset.toNat - 4) + size ≤ c.numIrqs := by
  simp only [Instr.wf, inLineRange, Bool.and_eq_true, decide_eq_true_eq, and_assoc]

theorem readOverrun_wf_iff {c : Config} {offset : Word} {size : Nat} :
    (Instr.readOverrun offset size).wf c = true ↔
      sizeWf c size = true ∧ 4 ≤ offset.toNat ∧ offset.toNat < 4 + c.numIrqs
        ∧ c.numIrqs < (offset.toNat - 4) + size := by
  simp only [Instr.wf, inLineRange, Bool.and_eq_true, decide_eq_true_eq, and_assoc]

theorem writeLine_wf_iff {c : Config} {offset value : Word} {size : Nat} :
    (Instr.writeLine offset size value).wf c = true ↔
      sizeWf c size = true ∧ 4 ≤ offset.toNat ∧ offset.toNat < 4 + c.numIrqs := by
  simp only [Instr.wf, inLineRange, Bool.and_eq_true, decide_eq_true_eq]

theorem inNoRegister_iff (c : Config) (offset : Word) :
    inNoRegister c offset = true ↔
      offset.toNat ≠ 0 ∧ ¬(4 ≤ offset.toNat ∧ offset.toNat < 4 + c.numIrqs) := by
  simp only [inNoRegister, Bool.or_eq_true, Bool.and_eq_true, decide_eq_true_eq]
  omega

theorem readInvalid_wf_iff {c : Config} {offset : Word} {size : Nat} :
    (Instr.readInvalid offset size).wf c = true ↔
      sizeWf c size = true ∧ offset.toNat ≠ 0 ∧ ¬(4 ≤ offset.toNat ∧ offset.toNat < 4 + c.numIrqs) := by
  rw [← inNoRegister_iff, ← Bool.and_eq_true, Instr.wf]

theorem writeInvalid_wf_iff {c : Config} {offset value : Word} {size : Nat} :
    (Instr.writeInvalid offset size value).wf c = true ↔
      sizeWf c size = true ∧ offset.toNat ≠ 0 ∧ ¬(4 ≤ offset.toNat ∧ offset.toNat < 4 + c.numIrqs) := by
  rw [← inNoRegister_iff, ← Bool.and_eq_true, Instr.wf]

/-- Every row of a bus read is reached in exactly one way, the `select` column of the opcode table. -/
theorem selectRead_cases (n : Nat) (offset : Word) (size : Nat) :
    (offset = 0#64 ∧ selectRead n offset size = .readStatus size)
    ∨ (4 ≤ offset.toNat ∧ offset.toNat < 4 + n ∧ (offset.toNat - 4) + size ≤ n
        ∧ selectRead n offset size = .readLine offset size)
    ∨ (4 ≤ offset.toNat ∧ offset.toNat < 4 + n ∧ n < (offset.toNat - 4) + size
        ∧ selectRead n offset size = .readOverrun offset size)
    ∨ (offset.toNat ≠ 0 ∧ ¬(4 ≤ offset.toNat ∧ offset.toNat < 4 + n)
        ∧ selectRead n offset size = .readInvalid offset size) := by
  obtain ⟨h0, h⟩ | ⟨hlow, hhigh, hfit, h⟩ | ⟨hlow, hhigh, hover, h⟩ | ⟨h0, hout, h⟩ := decodeRead_cases n offset size
  · exact .inl ⟨BitVec.eq_of_toNat_eq h0, by simp only [selectRead, h]⟩
  · exact .inr (.inl ⟨hlow, hhigh, hfit, by simp only [selectRead, h]⟩)
  · exact .inr (.inr (.inl ⟨hlow, hhigh, hover, by simp only [selectRead, h]⟩))
  · exact .inr (.inr (.inr ⟨h0, hout, by simp only [selectRead, h]⟩))

/-- Every row of a bus write is reached in exactly one way. -/
theorem selectWrite_cases (n : Nat) (offset : Word) (size : Nat) (value : Word) :
    (offset = 0#64 ∧ selectWrite n offset size value = .writeStatus size value)
    ∨ (4 ≤ offset.toNat ∧ offset.toNat < 4 + n ∧ selectWrite n offset size value = .writeLine offset size value)
    ∨ (offset.toNat ≠ 0 ∧ ¬(4 ≤ offset.toNat ∧ offset.toNat < 4 + n)
        ∧ selectWrite n offset size value = .writeInvalid offset size value) := by
  obtain ⟨h0, h⟩ | ⟨hlow, hhigh, h⟩ | ⟨h0, hout, h⟩ := decodeWrite_cases n offset
  · exact .inl ⟨BitVec.eq_of_toNat_eq h0, by simp only [selectWrite, h]⟩
  · exact .inr (.inl ⟨hlow, hhigh, by simp only [selectWrite, h]⟩)
  · exact .inr (.inr ⟨h0, hout, by simp only [selectWrite, h]⟩)

theorem encodeFields_selectRead (n : Nat) (offset : Word) (size : Nat) :
    encodeFields (selectRead n offset size) = readFields offset size := by
  obtain ⟨rfl, h⟩ | ⟨-, -, -, h⟩ | ⟨-, -, -, h⟩ | ⟨-, -, h⟩ := selectRead_cases n offset size <;> rw [h] <;> rfl

theorem encodeFields_selectWrite (n : Nat) (offset : Word) (size : Nat) (value : Word) :
    encodeFields (selectWrite n offset size value) = writeFields offset size value := by
  obtain ⟨rfl, h⟩ | ⟨-, -, h⟩ | ⟨-, -, h⟩ := selectWrite_cases n offset size value <;> rw [h] <;> rfl

theorem selectRead_wf {c : Config} {size : Nat} (offset : Word) (hsize : sizeWf c size = true) :
    (selectRead c.numIrqs offset size).wf c = true := by
  obtain ⟨-, h⟩ | ⟨hlow, hhigh, hfit, h⟩ | ⟨hlow, hhigh, hover, h⟩ | ⟨h0, hout, h⟩ :=
    selectRead_cases c.numIrqs offset size <;> rw [h]
  · exact hsize
  · exact readLine_wf_iff.mpr ⟨hsize, hlow, hhigh, hfit⟩
  · exact readOverrun_wf_iff.mpr ⟨hsize, hlow, hhigh, hover⟩
  · exact readInvalid_wf_iff.mpr ⟨hsize, h0, hout⟩

theorem selectWrite_wf {c : Config} {size : Nat} (offset value : Word) (hsize : sizeWf c size = true) :
    (selectWrite c.numIrqs offset size value).wf c = true := by
  obtain ⟨-, h⟩ | ⟨hlow, hhigh, h⟩ | ⟨h0, hout, h⟩ := selectWrite_cases c.numIrqs offset size value <;> rw [h]
  · exact hsize
  · exact writeLine_wf_iff.mpr ⟨hsize, hlow, hhigh⟩
  · exact writeInvalid_wf_iff.mpr ⟨hsize, h0, hout⟩

/-! ### From the descriptor to the operation and back -/

theorem sizeWf_of_admitted {c : Config} {op : OpCode} {f : Fields} (h : Admitted c op f) (hbus : isBusOp op = true) :
    sizeWf c f.size.toNat = true :=
  (sizeWf_iff c _).mpr ⟨h.busSize hbus, f.size.isLt⟩

theorem instrOf_wf {c : Config} {op : OpCode} {f : Fields} (h : Admitted c op f) :
    (instrOf c.numIrqs op f).wf c = true := by
  cases op with
  | busRead => exact selectRead_wf f.a (sizeWf_of_admitted h rfl)
  | busWrite => exact selectWrite_wf f.a f.v (sizeWf_of_admitted h rfl)
  | lineEvent | dbgSet | dbgClear | dbgEnable | dbgDisable => rfl

theorem ofBool_level (level : BitVec 1) : BitVec.ofBool (level == 1#1) = level := by
  revert level; decide

/-- What R65 leaves free in an admitted descriptor is what R64 makes an operand, so the encoder restores every field. -/
theorem encodeFields_instrOf {c : Config} {op : OpCode} {f : Fields} (h : Admitted c op f) :
    encodeFields (instrOf c.numIrqs op f) = f := by
  obtain ⟨o, size, level, reserved, a, v⟩ := f
  obtain ⟨rfl, rfl, -, hsize, hlevel, hv⟩ := h
  have hofNat : BitVec.ofNat 4 size.toNat = size := by rw [BitVec.ofNat_toNat, BitVec.setWidth_eq]
  cases op with
  | busRead =>
    obtain rfl : level = 0#1 := hlevel (by decide)
    obtain rfl : v = 0#64 := hv (by decide)
    rw [instrOf, encodeFields_selectRead, readFields, hofNat]
  | busWrite =>
    obtain rfl : level = 0#1 := hlevel (by decide)
    rw [instrOf, encodeFields_selectWrite, writeFields, hofNat]
  | lineEvent =>
    obtain rfl : size = 0#4 := hsize rfl
    obtain rfl : v = 0#64 := hv (by decide)
    rw [instrOf, encodeFields, lineEventFields, ofBool_level]
  | dbgSet | dbgClear | dbgEnable | dbgDisable =>
    obtain rfl : size = 0#4 := hsize rfl
    obtain rfl : level = 0#1 := hlevel (by decide)
    obtain rfl : v = 0#64 := hv (by decide)
    rfl

/-- Settles O2: the encoder restores the fields of an admitted descriptor, and the fields are the whole descriptor. -/
theorem encodeOfDecodeIsIdentity : Obligations.EncodeOfDecodeIsIdentity := by
  intro c d i h
  obtain ⟨op, hadm, rfl⟩ := admitted_of_decode h
  exact ⟨by rw [encode, encodeFields_instrOf hadm, packFields_fieldsOf], instrOf_wf hadm⟩

/-! ### From the operation to the descriptor and back -/

theorem toNat_ofNat_size {size : Nat} (h : size < 16) : (BitVec.ofNat 4 size).toNat = size := by
  rw [BitVec.toNat_ofNat, Nat.mod_eq_of_lt h]

theorem readFields_admitted {c : Config} {size : Nat} (offset : Word) (h : sizeWf c size = true) :
    Admitted c .busRead (readFields offset size) := by
  obtain ⟨hmem, hlt⟩ := (sizeWf_iff c size).mp h
  exact ⟨rfl, rfl, fun _ => (toNat_ofNat_size hlt).symm ▸ hmem, nofun, fun _ => rfl, fun _ => rfl⟩

theorem writeFields_admitted {c : Config} {size : Nat} (offset value : Word) (h : sizeWf c size = true) :
    Admitted c .busWrite (writeFields offset size value) := by
  obtain ⟨hmem, hlt⟩ := (sizeWf_iff c size).mp h
  exact ⟨rfl, rfl, fun _ => (toNat_ofNat_size hlt).symm ▸ hmem, nofun, fun _ => rfl, fun h => absurd rfl h⟩

theorem lineEventFields_admitted (c : Config) (index : Word) (level : Bool) :
    Admitted c .lineEvent (lineEventFields index level) :=
  ⟨rfl, rfl, nofun, fun _ => rfl, fun h => absurd rfl h, fun _ => rfl⟩

theorem debugFields_admitted (c : Config) {op : OpCode} (index : Word) (h : isBusOp op = false) :
    Admitted c op (debugFields op index) :=
  ⟨rfl, rfl, fun hbus => absurd (h.symm.trans hbus) nofun, fun _ => rfl, fun _ => rfl, fun _ => rfl⟩

theorem encodeFields_admitted {c : Config} {i : Instr} (h : i.wf c = true) :
    Admitted c i.opCode (encodeFields i) := by
  cases i with
  | readStatus size => exact readFields_admitted _ h
  | readLine offset size => exact readFields_admitted _ (readLine_wf_iff.mp h).1
  | readOverrun offset size => exact readFields_admitted _ (readOverrun_wf_iff.mp h).1
  | readInvalid offset size => exact readFields_admitted _ (readInvalid_wf_iff.mp h).1
  | writeStatus size value => exact writeFields_admitted _ _ h
  | writeLine offset size value => exact writeFields_admitted _ _ (writeLine_wf_iff.mp h).1
  | writeInvalid offset size value => exact writeFields_admitted _ _ (writeInvalid_wf_iff.mp h).1
  | lineEvent index level => exact lineEventFields_admitted c index level
  | dbgSet index | dbgClear index | dbgEnable index | dbgDisable index => exact debugFields_admitted c index rfl

theorem instrOf_readFields (n : Nat) (offset : Word) {c : Config} {size : Nat} (h : sizeWf c size = true) :
    instrOf n .busRead (readFields offset size) = selectRead n offset size :=
  congrArg (selectRead n offset) (toNat_ofNat_size ((sizeWf_iff c size).mp h).2)

theorem instrOf_writeFields (n : Nat) (offset value : Word) {c : Config} {size : Nat} (h : sizeWf c size = true) :
    instrOf n .busWrite (writeFields offset size value) = selectWrite n offset size value :=
  congrArg (selectWrite n offset · value) (toNat_ofNat_size ((sizeWf_iff c size).mp h).2)

/-- The row that the decoder selects is the one whose `select` condition the operation meets. -/
theorem instrOf_encodeFields {c : Config} {i : Instr} (h : i.wf c = true) :
    instrOf c.numIrqs i.opCode (encodeFields i) = i := by
  cases i with
  | readStatus size =>
    refine (instrOf_readFields _ _ h).trans ?_
    simp only [selectRead, decodeRead_zero]
  | readLine offset size =>
    obtain ⟨hsize, hlow, hhigh, hfit⟩ := readLine_wf_iff.mp h
    refine (instrOf_readFields _ _ hsize).trans ?_
    simp only [selectRead, decodeRead_lines hlow hhigh hfit]
  | readOverrun offset size =>
    obtain ⟨hsize, hlow, hhigh, hover⟩ := readOverrun_wf_iff.mp h
    refine (instrOf_readFields _ _ hsize).trans ?_
    simp only [selectRead, decodeRead_overrun hlow hhigh hover]
  | readInvalid offset size =>
    obtain ⟨hsize, h0, hout⟩ := readInvalid_wf_iff.mp h
    refine (instrOf_readFields _ _ hsize).trans ?_
    simp only [selectRead, decodeRead_invalid h0 hout]
  | writeStatus size value =>
    refine (instrOf_writeFields _ _ _ h).trans ?_
    simp only [selectWrite, decodeWrite_zero]
  | writeLine offset size value =>
    obtain ⟨hsize, hlow, hhigh⟩ := writeLine_wf_iff.mp h
    refine (instrOf_writeFields _ _ _ hsize).trans ?_
    simp only [selectWrite, decodeWrite_line hlow hhigh]
  | writeInvalid offset size value =>
    obtain ⟨hsize, h0, hout⟩ := writeInvalid_wf_iff.mp h
    refine (instrOf_writeFields _ _ _ hsize).trans ?_
    simp only [selectWrite, decodeWrite_invalid h0 hout]
  | lineEvent index level => cases level <;> rfl
  | dbgSet | dbgClear | dbgEnable | dbgDisable => rfl

/-- Settles O1: the encoder's fields are admitted, and the decoder selects the operation's own row from them. -/
theorem decodeOfEncodeIsIdentity : Obligations.DecodeOfEncodeIsIdentity := by
  intro c i h
  have hfields : fieldsOf (encode i) = encodeFields i := fieldsOf_packFields _
  have hadm : Admitted c i.opCode (fieldsOf (encode i)) := hfields.symm ▸ encodeFields_admitted h
  rw [decode_of_admitted hadm, hfields, instrOf_encodeFields h]

end Sys2Proof
end

section
/-! PROOFS. The grounds on which a descriptor is refused, and the header patterns (30_encoding.md R63, R65). -/

namespace Sys2Proof

/-! ### The grounds of R65 on the bits of the operation code -/

theorem opCodeOf_eq_none_iff (o : BitVec 4) : opCodeOf o = none ↔ o = 0x0#4 ∨ 0x8#4 ≤ o := by
  revert o; decide

theorem isBusOp_iff (op : OpCode) : isBusOp op = true ↔ opBits op = 0x1#4 ∨ opBits op = 0x2#4 := by
  cases op <;> decide

theorem ne_lineEvent_iff (op : OpCode) : op ≠ .lineEvent ↔ opBits op ≠ 0x3#4 := by
  cases op <;> decide

theorem ne_busWrite_iff (op : OpCode) : op ≠ .busWrite ↔ opBits op ≠ 0x2#4 := by
  cases op <;> decide

/-- The decoder refuses on a reserved operation code, or on one of the grounds of `fieldRefusal`. -/
theorem exists_refuse_iff (c : Config) (d : Descriptor) :
    (∃ r, decode c d = .refuse r) ↔
      opCodeOf (fieldsOf d).op = none
      ∨ ∃ op, (fieldsOf d).op = opBits op ∧ fieldRefusal c op (fieldsOf d) ≠ none := by
  constructor
  · rintro ⟨r, hr⟩
    obtain ⟨hcode, -⟩ | ⟨op, r', hop, hfields, -⟩ | ⟨op, -, hd⟩ := decode_cases c d
    · exact .inl hcode
    · exact .inr ⟨op, hop, by rw [hfields]; nofun⟩
    · rw [hd] at hr; cases hr
  · rintro (hcode | ⟨op, hop, hfields⟩)
    · exact ⟨_, decode_of_reservedOp hcode⟩
    · obtain ⟨r, hr⟩ := Option.ne_none_iff_exists'.mp hfields
      exact ⟨r, decode_of_fieldRefusal hop hr⟩

/-- R65 in the terms of the fields. -/
theorem exists_refuse_iff_grounds (c : Config) (d : Descriptor) :
    (∃ r, decode c d = .refuse r) ↔
      ((fieldsOf d).op = 0x0#4 ∨ 0x8#4 ≤ (fieldsOf d).op)
      ∨ (fieldsOf d).reserved ≠ 0#7
      ∨ (((fieldsOf d).op = 0x1#4 ∨ (fieldsOf d).op = 0x2#4) ∧ (fieldsOf d).size.toNat ∉ c.accessSizes)
      ∨ (¬((fieldsOf d).op = 0x1#4 ∨ (fieldsOf d).op = 0x2#4) ∧ (fieldsOf d).size ≠ 0#4)
      ∨ ((fieldsOf d).op ≠ 0x3#4 ∧ (fieldsOf d).level ≠ 0#1)
      ∨ ((fieldsOf d).op ≠ 0x2#4 ∧ (fieldsOf d).v ≠ 0#64) := by
  rw [exists_refuse_iff, opCodeOf_eq_none_iff]
  by_cases hres : (fieldsOf d).op = 0x0#4 ∨ 0x8#4 ≤ (fieldsOf d).op
  case pos => exact iff_of_true (.inl hres) (.inl hres)
  case neg =>
    obtain ⟨op, hcode⟩ := Option.ne_none_iff_exists'.mp (mt (opCodeOf_eq_none_iff _).mp hres)
    have hop : (fieldsOf d).op = opBits op := opCodeOf_eq_some_iff.mp hcode
    have hunique : (∃ op', (fieldsOf d).op = opBits op' ∧ fieldRefusal c op' (fieldsOf d) ≠ none)
        ↔ fieldRefusal c op (fieldsOf d) ≠ none := by
      refine ⟨?_, fun h => ⟨op, hop, h⟩⟩
      rintro ⟨op', hop', h⟩
      rwa [opBits_injective (hop.symm.trans hop')]
    rw [hunique, fieldRefusal_ne_none_iff, ← Bool.not_eq_true, isBusOp_iff, ne_lineEvent_iff, ne_busWrite_iff, hop]

theorem exec_ne_refused (i : Instr) (s : Machine.State) (q : Machine.Refusal) : Machine.exec i s ≠ .refused q := by
  obtain ⟨t, h, -⟩ | ⟨index, level, -, -, h⟩ := Machine.exec_inversion i s <;> rw [h] <;> nofun

/-- Settles O3: the grounds are `exists_refuse_iff_grounds`, the fields being the bits that the statement names. -/
theorem descriptorRefusedExactlyOnSixGrounds : Obligations.DescriptorRefusedExactlyOnSixGrounds :=
  ⟨exists_refuse_iff_grounds, fun _ _ _ => Machine.step_of_refuse, fun s _ i _ => exec_ne_refused i s⟩

/-! ### Header patterns (R63) -/

/-- Every row's header matches the pattern of its operation: the family of `Laws.HeaderPattern`. -/
theorem headerPattern_statement (i : Instr) : Laws.HeaderPattern.Statement i := by
  cases i with
  | readStatus size => exact Laws.HeaderPattern.readStatus size
  | readLine offset size => exact Laws.HeaderPattern.readLine offset size
  | readOverrun offset size => exact Laws.HeaderPattern.readOverrun offset size
  | readInvalid offset size => exact Laws.HeaderPattern.readInvalid offset size
  | writeStatus size value => exact Laws.HeaderPattern.writeStatus size value
  | writeLine offset size value => exact Laws.HeaderPattern.writeLine offset size value
  | writeInvalid offset size value => exact Laws.HeaderPattern.writeInvalid offset size value
  | lineEvent index level => exact Laws.HeaderPattern.lineEvent index level
  | dbgSet index => exact Laws.HeaderPattern.dbgSet index
  | dbgClear index => exact Laws.HeaderPattern.dbgClear index
  | dbgEnable index => exact Laws.HeaderPattern.dbgEnable index
  | dbgDisable index => exact Laws.HeaderPattern.dbgDisable index

/-- No mask frees a bit of the operation code, so a header that matches a pattern carries the pattern's code. -/
theorem setWidth_of_headerMatch {h : Header} {op : OpCode} (hmatch : h &&& headerMask op = headerMatch op) :
    h.setWidth 4 = opBits op := by
  have hmask : (headerMask op).setWidth 4 = BitVec.allOnes 4 := by cases op <;> rfl
  have hcode : (headerMatch op).setWidth 4 = opBits op := by cases op <;> rfl
  rw [← hcode, ← hmatch, BitVec.setWidth_and, hmask, BitVec.and_allOnes]

/-- Settles O4: the descriptor is the encoding of its operation, whose pattern it matches; and a header matches the
patterns of one operation code only. -/
theorem headerPatternSelectsOneOperation : Obligations.HeaderPatternSelectsOneOperation := by
  intro c d i h op
  obtain ⟨rfl, -⟩ := encodeOfDecodeIsIdentity c d i h
  have hown : headerOf (encode i) &&& headerMask i.opCode = headerMatch i.opCode := headerPattern_statement i
  refine ⟨fun hmatch => opBits_injective ?same, ?own⟩
  case same => rw [← setWidth_of_headerMatch hmatch, ← setWidth_of_headerMatch hown, headerOf]
  case own => rintro rfl; exact hown

/-- Settles O5, by evaluating the decoder on each of the closed words. -/
theorem writtenOutWordsDecode : Obligations.WrittenOutWordsDecode := by
  unfold Obligations.WrittenOutWordsDecode
  decide

end Sys2Proof
end

section
/-! PROOFS. Noninterference of the reserved bits (30_encoding.md R69): two states that agree in the control bits take the
same step. Each operation of the state keeps the agreement, by one lemma. -/

namespace Sys2Proof.Machine

/-! ### Control bits -/

/-- The control bits of the byte that `f` stores depend on the control bits of the byte it is given only. -/
def KeepsControl (f : Byte → Byte) : Prop := ∀ b, f b &&& 0x03#8 = f (b &&& 0x03#8) &&& 0x03#8

theorem setActive_keepsControl : KeepsControl setActive := by unfold KeepsControl; decide
theorem clearActive_keepsControl : KeepsControl clearActive := by unfold KeepsControl; decide
theorem setEnabled_keepsControl : KeepsControl setEnabled := by unfold KeepsControl; decide
theorem clearEnabled_keepsControl : KeepsControl clearEnabled := by unfold KeepsControl; decide
theorem const_keepsControl (b : Byte) : KeepsControl fun _ => b := fun _ => rfl

theorem map_control_modify {f : Byte → Byte} (hf : KeepsControl f) (lines : List Byte) (i : Nat) :
    (lines.modify i f).map (· &&& 0x03#8)
      = (lines.map (· &&& 0x03#8)).modify i fun b => f b &&& 0x03#8 := by
  apply List.ext_getElem?
  intro j
  rw [List.getElem?_map, List.getElem?_modify, List.getElem?_modify, List.getElem?_map]
  cases lines[j]? with
  | none => rfl
  | some b => by_cases hij : i = j <;> simp [hij, hf b]

theorem effective_control (b : Byte) : effective (b &&& 0x03#8) = effective b := by
  revert b; decide

theorem anyActive_map_control (lines : List Byte) : anyActive (lines.map (· &&& 0x03#8)) = anyActive lines := by
  have hcomp : effective ∘ (· &&& 0x03#8) = effective := funext effective_control
  rw [anyActive, anyActive, List.any_map, hcomp]

theorem aggregate_eq (status : StatusWord) (lines : List Byte) :
    aggregate status lines = (status.getLsbD 0 && anyActive lines) := by
  rw [Bool.eq_iff_iff, aggregate_iff, Bool.and_eq_true]

/-! ### States that agree -/

theorem SameControl.lines_length {s t : State} (h : SameControl s t) : s.lines.length = t.lines.length := by
  obtain ⟨-, -, hlines, -⟩ := h
  simpa using congrArg List.length hlines

theorem SameControl.config_eq {s t : State} (h : SameControl s t) : s.config = t.config := by
  have hlength := h.lines_length
  obtain ⟨hsizes, -⟩ := h
  rw [State.config, State.config, hlength, hsizes]

/-- The reserved bits do not enter the aggregate (41_update_engine.md R100). -/
theorem SameControl.aggregate_eq {s t : State} (h : SameControl s t) :
    aggregate s.status s.lines = aggregate t.status t.lines := by
  obtain ⟨-, hstatus, hlines, -⟩ := h
  rw [Machine.aggregate_eq, Machine.aggregate_eq, hstatus, ← anyActive_map_control, hlines, anyActive_map_control]

/-! ### The operations of the state keep the agreement -/

/-- Two events that may differ in read data only. -/
theorem SameControl.emit {s t : State} {e e' : Event} (h : SameControl s t) (hdrive : drivesOf [e] = drivesOf [e'])
    (hlog : logsOf [e] = logsOf [e']) (hread : (readsOf [e]).length = (readsOf [e']).length) :
    SameControl (emit e s) (emit e' t) := by
  obtain ⟨hsizes, hstatus, hlines, hirq, hmark, hdrives, hlogs, hreads, hprogram, hposition⟩ := h
  exact ⟨hsizes, hstatus, hlines, hirq, hmark, by simp [hdrives, hdrive], by simp [hlogs, hlog],
    by simp [hreads, hread], hprogram, hposition⟩

theorem SameControl.respond {s t : State} (h : SameControl s t) (v w : Word) :
    SameControl (respond v s) (respond w t) :=
  h.emit rfl rfl rfl

theorem SameControl.logInvalid {s t : State} (h : SameControl s t) (e : LogEntry) :
    SameControl (logInvalid e s) (logInvalid e t) :=
  h.emit rfl rfl rfl

theorem SameControl.recompute {s t : State} (h : SameControl s t) :
    SameControl (recompute s) (recompute t) := by
  have hlevel := h.aggregate_eq
  obtain ⟨hsizes, hstatus, hlines, -, hmark, hdrives, hlogs, hreads, hprogram, hposition⟩ := h
  exact ⟨hsizes, hstatus, hlines, hlevel, hmark, by simp [hdrives, hlevel], by simp [hlogs, logsOf],
    by simp [hreads, readsOf], hprogram, hposition⟩

theorem SameControl.setStatus {s t : State} (h : SameControl s t) (w : StatusWord) :
    SameControl (setStatus w s) (setStatus w t) := by
  obtain ⟨hsizes, -, hlines, hrest⟩ := h
  exact ⟨hsizes, rfl, hlines, hrest⟩

theorem SameControl.updateLine {s t : State} (h : SameControl s t) {f : Byte → Byte} (hf : KeepsControl f) (i : Nat) :
    SameControl (updateLine i f s) (updateLine i f t) := by
  obtain ⟨hsizes, hstatus, hlines, hrest⟩ := h
  refine ⟨hsizes, hstatus, ?_, hrest⟩
  simp only [updateLine_lines, map_control_modify hf, hlines]

theorem SameControl.advance {s t : State} (h : SameControl s t) : SameControl (advance s) (advance t) := by
  obtain ⟨hsizes, hstatus, hlines, hirq, hmark, hdrives, hlogs, hreads, hprogram, hposition⟩ := h
  exact ⟨hsizes, hstatus, hlines, hirq, hmark, hdrives, hlogs, hreads, hprogram, congrArg (· + 1) hposition⟩

/-! ### The three ports -/

/-- The address decode sees the number of lines only; what a read returns may differ in the reserved bits (R21, R23). -/
theorem SameControl.busRead {s t : State} (h : SameControl s t) (offset : Word) (size : Nat) :
    SameControl (busRead offset size s) (busRead offset size t) := by
  unfold Machine.busRead
  rw [h.lines_length]
  cases decodeRead t.lines.length offset size with
  | status => exact h.respond _ _
  | lines first count => exact h.respond _ _
  | overrun | invalid => exact (h.logInvalid _).respond _ _

theorem SameControl.busWrite {s t : State} (h : SameControl s t) (offset : Word) (size : Nat) (value : Word) :
    SameControl (busWrite offset size value s) (busWrite offset size value t) := by
  unfold Machine.busWrite
  rw [h.lines_length]
  cases decodeWrite t.lines.length offset with
  | status => exact (h.setStatus _).recompute
  | line index => exact (h.updateLine (const_keepsControl _) index).recompute
  | invalid => exact h.logInvalid _

theorem SameControl.debugUpdate {s t : State} (h : SameControl s t) {f : Byte → Byte} (hf : KeepsControl f)
    (index : Word) : SameControl (debugUpdate index f s) (debugUpdate index f t) := by
  unfold Machine.debugUpdate
  rw [h.lines_length]
  split
  · exact (h.updateLine hf _).recompute
  · exact h

theorem SameControl.setLine {s t : State} (h : SameControl s t) (i : Nat) (level : Bool) :
    SameControl (setLine i level s) (setLine i level t) := by
  cases level with
  | true => exact (h.updateLine setActive_keepsControl i).recompute
  | false => exact (h.updateLine clearActive_keepsControl i).recompute

theorem SameControl.raiseInvalidInputLine {s t : State} (h : SameControl s t) (index : Word) :
    SameFault (raiseInvalidInputLine index s) (raiseInvalidInputLine index t) := by
  obtain ⟨hsizes, hstatus, hlines, hirq, -, hrest⟩ := h
  exact ⟨rfl, hsizes, hstatus, hlines, hirq, rfl, hrest⟩

theorem SameControl.execLineEvent {s t : State} (h : SameControl s t) (index : Word) (level : Bool) :
    SameOutcome (execLineEvent index level s) (execLineEvent index level t) := by
  by_cases hindex : index.toNat < t.lines.length
  · rw [execLineEvent_valid level hindex, execLineEvent_valid level (h.lines_length ▸ hindex)]
    exact h.setLine _ level
  · have hle : t.lines.length ≤ index.toNat := Nat.le_of_not_lt hindex
    rw [execLineEvent_invalid level hle, execLineEvent_invalid level (h.lines_length ▸ hle)]
    exact h.raiseInvalidInputLine index

/-! ### Operations and steps -/

theorem SameControl.exec {s t : State} (h : SameControl s t) (i : Instr) : SameOutcome (exec i s) (exec i t) := by
  cases i with
  | readStatus | readLine | readOverrun | readInvalid => exact h.busRead _ _
  | writeStatus | writeLine | writeInvalid => exact h.busWrite _ _ _
  | lineEvent index level => exact h.execLineEvent index level
  | dbgSet index => exact h.debugUpdate setActive_keepsControl index
  | dbgClear index => exact h.debugUpdate clearActive_keepsControl index
  | dbgEnable index => exact h.debugUpdate setEnabled_keepsControl index
  | dbgDisable index => exact h.debugUpdate clearEnabled_keepsControl index

theorem SameOutcome.advanceOutcome {o o' : Host.Outcome State Fault Refusal} (h : SameOutcome o o') :
    SameOutcome (advanceOutcome o) (advanceOutcome o') := by
  cases o with
  | next s => cases o' with
    | next t => exact SameControl.advance h
    | fault | refused => cases h
  | fault f => cases o' with
    | fault g => exact h
    | next | refused => cases h
  | refused q => cases o' with
    | refused r => exact h
    | next | fault => cases h

/-- Mark, fetch and decoding do not read the registers' bits, and `exec` keeps the agreement. -/
theorem SameControl.step {s t : State} (h : SameControl s t) : SameOutcome (step s) (step t) := by
  have hconfig := h.config_eq
  have ⟨_, _, _, _, hmark, _, _, _, hprogram, hposition⟩ := h
  by_cases hm : t.faultMark = .none
  · have hm' : s.faultMark = .none := hmark.trans hm
    have hfetch : s.program[s.position]? = t.program[t.position]? := by rw [hprogram, hposition]
    cases hf : t.program[t.position]? with
    | none =>
      rw [step_of_nothing hm hf, step_of_nothing hm' (hfetch.trans hf)]
      exact h
    | some d =>
      cases hd : decode t.config d with
      | refuse r =>
        rw [step_of_refuse hm hf hd, step_of_refuse hm' (hfetch.trans hf) (hconfig ▸ hd)]
        rfl
      | instr i =>
        rw [step_of_decode hm hf hd, step_of_decode hm' (hfetch.trans hf) (hconfig ▸ hd)]
        exact (h.exec i).advanceOutcome
  · rw [step_of_faultMark hm, step_of_faultMark (hmark ▸ hm)]
    exact h

/-- Settles O47: the two-state step lemma, and that every row of a write is `busWrite`, which completes. -/
theorem reservedBitsNeverMatter : Obligations.ReservedBitsNeverMatter := by
  refine ⟨fun s t h => h.step, fun i s hi => ?_⟩
  obtain ⟨offset, size, value, hexec, -⟩ := exec_of_busWrite hi
  exact ⟨_, hexec s⟩

end Sys2Proof.Machine
end

section
/-! PROOFS. The register port (40_register_access.md R80 to R88): the descriptors of its rows, what a read answers, what
a write changes; and the write columns of the access matrix (10_state.md R31). -/

namespace Sys2Proof

/-! ### The descriptors of the bus rows (30_encoding.md R61, R72) -/

/-- A descriptor is written `H= A= V=` with its own header and operand fields. -/
theorem descriptorOf_headerOf (d : Descriptor) : descriptorOf (headerOf d) (fieldsOf d).a (fieldsOf d).v = d := by
  apply BitVec.eq_of_getLsbD_eq
  intro k hk
  simp only [descriptorOf, headerOf, fieldsOf, BitVec.getLsbD_append, BitVec.getLsbD_extractLsb']
  repeat' split
  all_goals (rw [decide_eq_true (by omega), Bool.true_and]; congr 1; omega)

theorem packFields_eq_descriptorOf (f : Fields) :
    packFields f = descriptorOf (f.reserved ++ f.level ++ f.size ++ f.op) f.a f.v := by
  have h := descriptorOf_headerOf (packFields f)
  rw [Laws.headerOf_packFields, fieldsOf_packFields] at h
  exact h.symm

/-- The header of a bus access, `0x00s1` or `0x00s2`: the size stands above the operation code, all else is 0. -/
theorem busHeader_eq (op : BitVec 4) {size : Nat} (h : size < 16) :
    (0#7 ++ 0#1 ++ BitVec.ofNat 4 size ++ op : Header) = op.setWidth 16 ||| BitVec.ofNat 16 (16 * size) := by
  interval_cases size <;> revert op <;> decide

theorem packFields_readFields (offset : Word) {size : Nat} (h : size < 16) :
    packFields (readFields offset size) = descriptorOf (0x0001#16 ||| BitVec.ofNat 16 (16 * size)) offset 0#64 := by
  rw [packFields_eq_descriptorOf]
  exact congrArg (descriptorOf · offset 0#64) (busHeader_eq (opBits .busRead) h)

theorem packFields_writeFields (offset value : Word) {size : Nat} (h : size < 16) :
    packFields (writeFields offset size value)
      = descriptorOf (0x0002#16 ||| BitVec.ofNat 16 (16 * size)) offset value := by
  rw [packFields_eq_descriptorOf]
  exact congrArg (descriptorOf · offset value) (busHeader_eq (opBits .busWrite) h)

/-! ### The offsets of no register (20_memory.md R41) -/

theorem offset_selects_no_register {n : Nat} {offset : Word}
    (h : offset = 1#64 ∨ offset = 2#64 ∨ offset = 3#64 ∨ 4 + n ≤ offset.toNat) :
    offset.toNat ≠ 0 ∧ ¬(4 ≤ offset.toNat ∧ offset.toNat < 4 + n) := by
  obtain rfl | rfl | rfl | h := h
  · simp
  · simp
  · simp
  · omega

end Sys2Proof

namespace Sys2Proof.Machine

/-! ### What a read answers (R81 to R84) -/

/-- The byte form of `packLines_getLsbD`: little-endian, and 0 from `count` up (20_memory.md R43). -/
theorem packLines_extract_byte (lines : List Byte) (first count : Nat) {k : Nat} (hk : k < 8) :
    (packLines lines first count).extractLsb' (8 * k) 8 = if k < count then lines.getD (first + k) 0#8 else 0#8 := by
  apply BitVec.eq_of_getLsbD_eq
  intro m hm
  have hbyte : (8 * k + m) / 8 = k := by omega
  have hbit : (8 * k + m) % 8 = m := by omega
  have hcount : 8 * k + m < 8 * count ↔ k < count := by omega
  rw [BitVec.getLsbD_extractLsb', packLines_getLsbD _ _ _ _ (by omega), hbyte, hbit]
  by_cases h : k < count <;> simp [hm, hcount, h]

/-- A rejected read and an invalid one do the same: the log event, then the response 0 (R83, R84). -/
theorem rdOverrun_eq (offset : Word) (size : Nat) (s : State) :
    rdOverrun offset size s = { s with trace := s.trace ++ [.log (.invalidRead offset size), .readData 0#64] } := by
  simp [rdOverrun, respond, logInvalid, emit]

theorem rdInvalid_eq (offset : Word) (size : Nat) (s : State) :
    rdInvalid offset size s = { s with trace := s.trace ++ [.log (.invalidRead offset size), .readData 0#64] } :=
  rdOverrun_eq offset size s

/-- Settles O21: the response is the packing of the lines, read back byte by byte. -/
theorem readLinePacksLittleEndian : Obligations.ReadLinePacksLittleEndian := by
  intro s offset size hlow hhigh hfit
  refine ⟨packFields_readFields offset, packLines s.lines (offset.toNat - 4) size,
    congrArg Host.Outcome.next (busRead_lines hlow hhigh hfit),
    fun k b hk hsize hb => ?inside, fun k hk hsize => ?above⟩
  case inside => rw [packLines_extract_byte _ _ _ hk, if_pos hsize, List.getD_eq_getElem?_getD, hb, Option.getD_some]
  case above => rw [packLines_extract_byte _ _ _ hk, if_neg (Nat.not_lt.mpr hsize)]

/-- Settles O20, by the equation of a read at offset 0. -/
theorem readStatusReturnsWholeWord : Obligations.ReadStatusReturnsWholeWord := by
  intro s size
  exact ⟨packFields_readFields 0#64, congrArg Host.Outcome.next (busRead_status s size)⟩

/-- Settles O22, by the dispatch of a read that runs past the last line. -/
theorem readOverrunReturnsZero : Obligations.ReadOverrunReturnsZero := by
  intro s offset size hlow hhigh hover
  exact ⟨packFields_readFields offset,
    congrArg Host.Outcome.next ((busRead_overrun hlow hhigh hover).trans (rdOverrun_eq offset size s))⟩

/-- Settles O23, by the dispatch of a read at an offset of no register. -/
theorem readInvalidReturnsZero : Obligations.ReadInvalidReturnsZero := by
  intro s offset size h
  obtain ⟨h0, hout⟩ := offset_selects_no_register h
  exact ⟨packFields_readFields offset,
    congrArg Host.Outcome.next ((busRead_invalid h0 hout).trans (rdInvalid_eq offset size s))⟩

/-! ### What a write changes (R86 to R88) -/

/-- A write of the status word followed by the update engine: all it does (R86); `lineUpdate_spec` is the
counterpart for a line. -/
theorem wrStatus_spec (value : Word) (s : State) :
    (wrStatus value s).status = value.setWidth 32 ∧ (wrStatus value s).lines = s.lines
      ∧ DrivesOnce s (wrStatus value s) ∧ SameHost s (wrStatus value s) :=
  ⟨rfl, rfl, ⟨rfl, rfl⟩, rfl, rfl, rfl, rfl⟩

/-- Settles O25: the write is a line update with a constant function. -/
theorem writeLineWritesExactlyOneByte : Obligations.WriteLineWritesExactlyOneByte := by
  intro s offset size value hlow hhigh
  have hline : s.lines[offset.toNat - 4]? = some s.lines[offset.toNat - 4] := List.getElem?_eq_getElem (by omega)
  exact ⟨packFields_writeFields offset value, wrLine (offset.toNat - 4) value s,
    congrArg Host.Outcome.next (busWrite_line value hlow hhigh), lineUpdate_spec (fun _ => byteOfData value) hline⟩

/-- Settles O24, by the equation of a write at offset 0. -/
theorem writeStatusReplacesWholeWord : Obligations.WriteStatusReplacesWholeWord := by
  intro s size value
  exact ⟨packFields_writeFields 0#64 value, wrStatus value s,
    congrArg Host.Outcome.next (busWrite_status s size value), wrStatus_spec value s⟩

/-- Settles O26, by the dispatch of a write at an offset of no register. -/
theorem writeInvalidOnlyLogs : Obligations.WriteInvalidOnlyLogs := by
  intro s offset size value h
  obtain ⟨h0, hout⟩ := offset_selects_no_register h
  exact ⟨packFields_writeFields offset value, congrArg Host.Outcome.next (busWrite_invalid value h0 hout)⟩

/-! ### The status column of the access matrix (10_state.md R31) -/

theorem busWrite_status_of_offset_ne {offset : Word} (size : Nat) (value : Word) (s : State) (h0 : offset.toNat ≠ 0) :
    (busWrite offset size value s).status = s.status := by
  obtain ⟨h, -⟩ | ⟨-, -, h⟩ | ⟨-, -, h⟩ := busWrite_spec offset size value s
  · exact absurd h h0
  · rw [h]; rfl
  · rw [h]; rfl

/-- Only a bus write changes the status word. -/
theorem Change.status_eq {i : Instr} {s t : State} (h : Change i s t) (hi : i.opCode ≠ .busWrite) :
    t.status = s.status := by
  cases h with
  | status w hwrite => exact absurd hwrite hi
  | read | line | logged | nothing => rfl

theorem exec_status_of_not_writesStatus {i : Instr} {s t : State} (h : exec i s = .next t)
    (hw : writesStatus i = false) : t.status = s.status := by
  cases i with
  | writeStatus => cases hw
  | writeLine offset size value | writeInvalid offset size value =>
    cases h
    exact busWrite_status_of_offset_ne size value s (of_decide_eq_false hw)
  | readStatus | readLine | readOverrun | readInvalid | lineEvent | dbgSet | dbgClear | dbgEnable | dbgDisable =>
    exact (exec_next_change h).status_eq fun hi => by cases hi

/-! ### The line columns of the access matrix (R31) -/

/-- The two bytes agree in every bit but bit `m`. -/
def AgreeOff (m : Nat) (b b' : Byte) : Prop := ∀ k, k ≠ m → b'.getLsbD k = b.getLsbD k

theorem setActive_agreeOff (b : Byte) : AgreeOff 0 b (setActive b) := fun k hk => by simp [setActive_getLsbD, hk]
theorem clearActive_agreeOff (b : Byte) : AgreeOff 0 b (clearActive b) := fun k hk => by simp [clearActive_getLsbD, hk]
theorem setEnabled_agreeOff (b : Byte) : AgreeOff 1 b (setEnabled b) := fun k hk => by simp [setEnabled_getLsbD, hk]
theorem clearEnabled_agreeOff (b : Byte) : AgreeOff 1 b (clearEnabled b) := fun k hk => by
  simp [clearEnabled_getLsbD, hk]

/-- The byte of line `j` across an update of line `i`. -/
theorem updateLine_byte_cases {s : State} {i j : Nat} {f : Byte → Byte} {b b' : Byte} (hb : s.lines[j]? = some b)
    (hb' : (updateLine i f s).lines[j]? = some b') : b' = b ∨ (i = j ∧ b' = f b) := by
  rw [updateLine_lines, List.getElem?_modify, hb] at hb'
  by_cases hij : i = j
  · exact .inr ⟨hij, by simpa [hij] using hb'.symm⟩
  · exact .inl (by simpa [hij] using hb'.symm)

theorem busWrite_byte_cases {s : State} {offset value : Word} {size j : Nat} {b b' : Byte}
    (hb : s.lines[j]? = some b) (hb' : (busWrite offset size value s).lines[j]? = some b') :
    b' = b ∨ writesWholeLine s.lines.length j (.writeLine offset size value) = true := by
  obtain ⟨-, h⟩ | ⟨hlow, hhigh, h⟩ | ⟨-, -, h⟩ := busWrite_spec offset size value s <;> rw [h] at hb'
  · exact .inl (Option.some.inj (hb'.symm.trans hb))
  · exact (updateLine_byte_cases hb hb').imp_right fun ⟨hij, _⟩ => by
      simp [writesWholeLine, lineOffset, hlow, hhigh, hij]
  · exact .inl (Option.some.inj (hb'.symm.trans hb))

theorem debugUpdate_byte_cases {s : State} {index : Word} {f : Byte → Byte} {m j : Nat} {b b' : Byte}
    (hf : ∀ b, AgreeOff m b (f b)) (hb : s.lines[j]? = some b)
    (hb' : (debugUpdate index f s).lines[j]? = some b') :
    b' = b ∨ (decide (index.toInt = j) = true ∧ AgreeOff m b b') := by
  obtain ⟨i, hi, -, h⟩ | ⟨-, h⟩ := debugUpdate_cases index f s <;> rw [h] at hb'
  · refine (updateLine_byte_cases hb hb').imp_right ?_
    rintro ⟨rfl, rfl⟩
    exact ⟨decide_eq_true hi, hf b⟩
  · exact .inl (Option.some.inj (hb'.symm.trans hb))

theorem setLine_byte_cases {s : State} {i j : Nat} {level : Bool} {b b' : Byte} (hb : s.lines[j]? = some b)
    (hb' : (setLine i level s).lines[j]? = some b') : b' = b ∨ (decide (i = j) = true ∧ AgreeOff 0 b b') := by
  refine (updateLine_byte_cases hb hb').imp_right ?_
  rintro ⟨rfl, rfl⟩
  cases level with
  | true => exact ⟨decide_eq_true rfl, setActive_agreeOff b⟩
  | false => exact ⟨decide_eq_true rfl, clearActive_agreeOff b⟩

theorem exec_lines_of_busRead {i : Instr} {s t : State} (h : exec i s = .next t) (hi : i.opCode = .busRead) :
    t.lines = s.lines := by
  obtain ⟨v, es, hread, -, -⟩ := busReadsChangeNoState i s hi
  cases h.symm.trans hread
  rfl

theorem execLineEvent_next {index : Word} {level : Bool} {s t : State} (h : execLineEvent index level s = .next t) :
    t = setLine index.toNat level s := by
  obtain hlt | hle := Nat.lt_or_ge index.toNat s.lines.length
  · rw [execLineEvent_valid level hlt] at h
    exact (Host.Outcome.next.inj h).symm
  · rw [execLineEvent_invalid level hle] at h
    cases h

/-- What an operation that completes can do to the byte of one line: nothing, a write of the whole byte, a change of
ACTIVE only, or a change of ENABLED only; each of the three only where the matrix has it. -/
theorem exec_byte_cases {i : Instr} {s t : State} (h : exec i s = .next t) {j : Nat} {b b' : Byte}
    (hb : s.lines[j]? = some b) (hb' : t.lines[j]? = some b') :
    b' = b
    ∨ writesWholeLine s.lines.length j i = true
    ∨ (writesActive s.lines.length j i = true ∧ AgreeOff 0 b b')
    ∨ (writesEnabled s.lines.length j i = true ∧ AgreeOff 1 b b') := by
  cases i with
  | readStatus | readLine | readOverrun | readInvalid =>
    rw [exec_lines_of_busRead h rfl] at hb'
    exact .inl (Option.some.inj (hb'.symm.trans hb))
  | writeStatus size value =>
    cases h
    rw [busWrite_status] at hb'
    exact .inl (Option.some.inj (hb'.symm.trans hb))
  | writeLine offset size value | writeInvalid offset size value =>
    cases h
    exact (busWrite_byte_cases hb hb').imp_right .inl
  | lineEvent index level =>
    cases execLineEvent_next h
    exact (setLine_byte_cases hb hb').imp_right fun hactive => .inr (.inl hactive)
  | dbgSet index =>
    cases h
    exact (debugUpdate_byte_cases setActive_agreeOff hb hb').imp_right fun hactive => .inr (.inl hactive)
  | dbgClear index =>
    cases h
    exact (debugUpdate_byte_cases clearActive_agreeOff hb hb').imp_right fun hactive => .inr (.inl hactive)
  | dbgEnable index =>
    cases h
    exact (debugUpdate_byte_cases setEnabled_agreeOff hb hb').imp_right fun henabled => .inr (.inr henabled)
  | dbgDisable index =>
    cases h
    exact (debugUpdate_byte_cases clearEnabled_agreeOff hb hb').imp_right fun henabled => .inr (.inr henabled)

/-- A write of the whole byte writes its two control bits. -/
theorem writesActive_writesEnabled_of_writesWholeLine {n j : Nat} {i : Instr} (h : writesWholeLine n j i = true) :
    writesActive n j i = true ∧ writesEnabled n j i = true := by
  cases i with
  | writeLine | writeInvalid => exact ⟨h, h⟩
  | readStatus | readLine | readOverrun | readInvalid | writeStatus | lineEvent | dbgSet | dbgClear | dbgEnable
  | dbgDisable => cases h

/-- Settles O46: in each case of `exec_byte_cases` the columns that the row does not write agree. -/
theorem operationsWriteOnlyTheirColumns : Obligations.OperationsWriteOnlyTheirColumns := by
  intro i s t h
  refine ⟨exec_status_of_not_writesStatus h, (exec_next_change h).lines_length, fun j b b' hb hb' => ?_⟩
  obtain rfl | hwhole | ⟨hactive, hagree⟩ | ⟨henabled, hagree⟩ := exec_byte_cases h hb hb'
  · exact ⟨fun _ => rfl, fun _ => rfl, fun _ _ _ => rfl⟩
  · obtain ⟨hactive, henabled⟩ := writesActive_writesEnabled_of_writesWholeLine hwhole
    simp [hwhole, hactive, henabled]
  · exact ⟨by simp [hactive], fun _ => hagree 1 (by decide), fun _ k hk => hagree k (by omega)⟩
  · exact ⟨fun _ => hagree 0 (by decide), by simp [henabled], fun _ k hk => hagree k (by omega)⟩

end Sys2Proof.Machine
end

section
/-! PROOFS. The update engine (41_update_engine.md R100 to R105): the aggregate in terms of bits, the drives of one
operation, and the two orders of enabling a line (70_reset_and_hazards.md R173). -/

namespace Sys2Proof.Machine

/-! ### The aggregate (R100) -/

theorem anyActive_iff (lines : List Byte) :
    anyActive lines = true ↔
      ∃ (j : Nat) (b : Byte), lines[j]? = some b ∧ b.getLsbD 0 = true ∧ b.getLsbD 1 = true := by
  simp only [anyActive, List.any_eq_true, effective_iff, List.mem_iff_getElem?]
  constructor
  · rintro ⟨b, ⟨j, hb⟩, hbits⟩
    exact ⟨j, b, hb, hbits⟩
  · rintro ⟨j, b, hb, hbits⟩
    exact ⟨b, ⟨j, hb⟩, hbits⟩

/-- Settles O11: the gate is `aggregate_iff`, the OR `anyActive_iff`. -/
theorem aggregateIsGatedOrOfEffectiveLines : Obligations.AggregateIsGatedOrOfEffectiveLines := by
  intro status lines
  rw [aggregate_iff, anyActive_iff]

/-- The gate alone: without the global enable the lines do not matter (R104). -/
theorem aggregate_of_globalDisable {status : StatusWord} (h : status.getLsbD 0 = false) (lines : List Byte) :
    aggregate status lines = false := by
  rw [Bool.eq_false_iff, ne_eq, aggregate_iff, h]
  simp

/-! ### The drives of one operation (R103) -/

/-- From `s` to `t` the update engine does not run: no drive event is added, and the output line keeps its level. -/
def DrivesNever (s t : State) : Prop := t.irqOut = s.irqOut ∧ drivesOf t.trace = drivesOf s.trace

/-- From `s` to `t` the update engine runs once if `runs`, and otherwise not at all. -/
def DrivesIf (runs : Bool) (s t : State) : Prop :=
  (runs = true ∧ DrivesOnce s t) ∨ (runs = false ∧ DrivesNever s t)

theorem exec_drivesNever_of_busRead {i : Instr} {s t : State} (h : exec i s = .next t) (hi : i.opCode = .busRead) :
    DrivesNever s t := by
  obtain ⟨v, es, hread, hdrives, -⟩ := busReadsChangeNoState i s hi
  cases h.symm.trans hread
  exact ⟨rfl, by simp [hdrives, drivesOf]⟩

theorem busWrite_drivesIf (offset : Word) (size : Nat) (value : Word) (s : State) :
    DrivesIf (decide (offset.toNat = 0) || lineOffset s.lines.length offset) s (busWrite offset size value s) := by
  obtain ⟨hzero, h⟩ | ⟨hlow, hhigh, h⟩ | ⟨hzero, hout, h⟩ := busWrite_spec offset size value s <;> rw [h]
  · exact .inl ⟨by simp [hzero], rfl, rfl⟩
  · exact .inl ⟨by simp [lineOffset, hlow, hhigh], rfl, rfl⟩
  · exact .inr ⟨by simpa [lineOffset, hzero] using hout, rfl, by simp [drivesOf]⟩

theorem debugUpdate_drivesIf (index : Word) (f : Byte → Byte) (s : State) :
    DrivesIf (debugValid s.lines.length index) s (debugUpdate index f s) := by
  obtain ⟨j, hj, hlt, h⟩ | ⟨hout, h⟩ := debugUpdate_cases index f s <;> rw [h]
  · exact .inl ⟨(debugValid_iff _ _).mpr ⟨by omega, by omega⟩, rfl, rfl⟩
  · refine .inr ⟨?_, rfl, rfl⟩
    rw [Bool.eq_false_iff, ne_eq, debugValid_iff]
    omega

/-- An operation that completes runs the update engine as the last column of R31 says. -/
theorem exec_drivesIf {i : Instr} {s t : State} (h : exec i s = .next t) :
    DrivesIf (runsUpdateEngine s.lines.length i) s t := by
  cases i with
  | readStatus | readLine | readOverrun | readInvalid => exact .inr ⟨rfl, exec_drivesNever_of_busRead h rfl⟩
  | writeStatus size value =>
    cases h
    rw [busWrite_status]
    exact .inl ⟨rfl, rfl, rfl⟩
  | writeLine offset size value | writeInvalid offset size value =>
    cases h
    exact busWrite_drivesIf offset size value s
  | lineEvent index level =>
    obtain hlt | hle := Nat.lt_or_ge index.toNat s.lines.length
    · cases (execLineEvent_valid level hlt).symm.trans h
      exact .inl ⟨decide_eq_true hlt, rfl, rfl⟩
    · cases (execLineEvent_invalid level hle).symm.trans h
  | dbgSet index | dbgClear index | dbgEnable index | dbgDisable index =>
    cases h
    exact debugUpdate_drivesIf index _ s

theorem DrivesOnce.drivesOf_trace {s t : State} (h : DrivesOnce s t) :
    drivesOf t.trace = drivesOf s.trace ++ [t.irqOut] := by
  obtain ⟨-, htrace⟩ := h
  rw [htrace, drivesOf_append]
  rfl

/-- Settles O12: `exec_drivesIf` for the operations that complete; a fault and construction record nothing. -/
theorem updateEngineRunsExactlyOnce : Obligations.UpdateEngineRunsExactlyOnce := by
  refine ⟨fun i s t h => ?completed, fun i s f h => ?faulted, fun c => rfl⟩
  case completed =>
    obtain ⟨hruns, honce⟩ | ⟨hidle, -, hdrives⟩ := exec_drivesIf h
    · rw [if_pos hruns, honce.drivesOf_trace, honce.1]
    · simp [hidle, hdrives]
  case faulted =>
    obtain ⟨-, -, hfaults, -⟩ := faultMarkSetOnlyByInvalidLineEvent
    obtain ⟨index, level, -, -, rfl⟩ := (hfaults i s f).mp h
    rfl

/-- Settles O13: the one drive has the level of the aggregate, which the gate holds at false. -/
theorem globalDisableAlwaysDeasserts : Obligations.GlobalDisableAlwaysDeasserts := by
  intro i s t h hruns hdisabled
  obtain ⟨-, hirq, htrace⟩ | ⟨hidle, -⟩ := exec_drivesIf h
  · have hlow : t.irqOut = false := hirq.trans (aggregate_of_globalDisable hdisabled t.lines)
    exact ⟨hlow, by rw [htrace, hlow]⟩
  · rw [hruns] at hidle
    cases hidle

/-! ### The level of the output line as an invariant of a step (R102, R105) -/

/-- Settles O14. -/
theorem stepKeepsOutputEqualToAggregate : Obligations.StepKeepsOutputEqualToAggregate :=
  fun _ _ => step_irqOut_eq_aggregate

theorem DrivesOnce.irqOut_eq_lastDriven {s t : State} (h : DrivesOnce s t) : t.irqOut = lastDriven t.trace := by
  simp [lastDriven, h.drivesOf_trace]

theorem DrivesNever.irqOut_eq_lastDriven {s t : State} (h : DrivesNever s t) (hs : s.irqOut = lastDriven s.trace) :
    t.irqOut = lastDriven t.trace := by
  obtain ⟨hirq, hdrives⟩ := h
  rw [hirq, hs, lastDriven, lastDriven, hdrives]

/-- Settles O16: an operation either drives, and then the last drive is its own, or leaves both the level and the drives
as they are. -/
theorem stepKeepsOutputEqualToLastDrive : Obligations.StepKeepsOutputEqualToLastDrive := by
  intro s t hs h
  obtain ⟨-, ⟨-, rfl⟩ | ⟨d, i, u, -, -, hexec, rfl⟩⟩ := step_next_cases h
  · exact hs
  · rw [advance_irqOut, advance_trace]
    obtain ⟨-, honce⟩ | ⟨-, hnever⟩ := exec_drivesIf hexec
    · exact honce.irqOut_eq_lastDriven
    · exact hnever.irqOut_eq_lastDriven hs

/-! ### The order of enabling (R173) -/

/-- `GE` is bit 0 of the data of a status write (30_encoding.md R68). -/
theorem statusOfData_getLsbD_zero (value : Word) : (statusOfData value).getLsbD 0 = value.getLsbD 0 := by
  simp [statusOfData]

/-- With the global enable set, enabling an ACTIVE line asserts the aggregate. -/
theorem aggregate_modify_setEnabled {status : StatusWord} {lines : List Byte} {j : Nat} {b : Byte}
    (henable : status.getLsbD 0 = true) (hb : lines[j]? = some b) (hactive : b.getLsbD 0 = true) :
    aggregate status (lines.modify j setEnabled) = true := by
  rw [aggregate_iff, anyActive_iff]
  refine ⟨henable, j, setEnabled b, ?line, ?active, ?enabled⟩
  case line => simp [hb]
  case active => rw [setEnabled_getLsbD, hactive, Bool.or_true]
  case enabled => rw [setEnabled_getLsbD]; rfl

/-- Settles O48: the two operations write different registers, so either order leaves the new status word and the line
enabled, and the last drive is the aggregate of these. -/
theorem enableOrderDoesNotMatter : Obligations.EnableOrderDoesNotMatter := by
  intro s index j b size value hindex hb hvalue
  obtain ⟨hlt, -⟩ := List.getElem?_eq_some_iff.mp hb
  have hwrite : ∀ r, exec (.writeStatus size value) r = .next (wrStatus value r) := fun r =>
    congrArg Host.Outcome.next (busWrite_status r size value)
  have henable : ∀ r : State, j < r.lines.length →
      exec (.dbgEnable index) r = .next (recompute (updateLine j setEnabled r)) := fun r hr =>
    congrArg Host.Outcome.next (debugUpdate_valid setEnabled hindex hr)
  refine ⟨_, _, _, _, henable s hlt, hwrite _, hwrite s, henable _ hlt, rfl, rfl, rfl, fun hactive => ?asserted⟩
  case asserted =>
    exact aggregate_modify_setEnabled ((statusOfData_getLsbD_zero value).trans hvalue) hb hactive

end Sys2Proof.Machine
end

section
/-! PROOFS. The line input (42_input_adapter.md R110 to R114): what a LINE_EVENT does, and that ACTIVE keeps its value
over a run in which none of the three paths of R113 writes it. -/

namespace Sys2Proof.Machine

/-! ### One LINE_EVENT (R110, R112, R114) -/

/-- The header of a LINE_EVENT: the level is bit 8, above the operation code (30_encoding.md R61, R72). -/
theorem lineEventHeader_eq (level : Bool) :
    (0#7 ++ BitVec.ofBool level ++ 0#4 ++ opBits .lineEvent : Header) = if level then 0x0103#16 else 0x0003#16 := by
  cases level <;> decide

theorem encode_lineEvent (index : Word) (level : Bool) :
    encode (.lineEvent index level) = descriptorOf (if level then 0x0103#16 else 0x0003#16) index 0#64 :=
  (packFields_eq_descriptorOf (lineEventFields index level)).trans
    (congrArg (descriptorOf · index 0#64) (lineEventHeader_eq level))

/-- All that a LINE_EVENT does on a line that exists. -/
theorem setLine_spec {i : Nat} {b : Byte} {s : State} (level : Bool) (h : s.lines[i]? = some b) :
    OnlyLine i (if level then b ||| 0x01#8 else b &&& 0xFE#8) s (setLine i level s)
      ∧ (setLine i level s).status = s.status ∧ DrivesOnce s (setLine i level s) ∧ SameHost s (setLine i level s) := by
  cases level with
  | true => exact lineUpdate_spec setActive h
  | false => exact lineUpdate_spec clearActive h

theorem setLine_drivesOnce (i : Nat) (level : Bool) (s : State) : DrivesOnce s (setLine i level s) := ⟨rfl, rfl⟩

/-- Settles O35: a line that exists has a valid index, and `setLine_spec` says what the event does there. -/
theorem lineEventWritesActive : Obligations.LineEventWritesActive := by
  intro s index level
  refine ⟨encode_lineEvent index level, fun b hb => ?valid, execLineEvent_invalid level⟩
  case valid =>
    obtain ⟨hlt, -⟩ := List.getElem?_eq_some_iff.mp hb
    exact ⟨setLine index.toNat level s, execLineEvent_valid level hlt, setLine_spec level hb⟩

/-- Settles O36: the fault leaves its mark, and a block whose mark is set answers only a fault. -/
theorem invalidLineEventFaultsForGood : Obligations.InvalidLineEventFaultsForGood := by
  intro s index level hindex
  refine ⟨execLineEvent_invalid level hindex, fun u hu => ?halted⟩
  case halted =>
    rw [step_of_faultMark (by simp)] at hu
    cases hu

/-- Settles O37: the byte of a line stays, or the line is the addressed one and its byte agrees off bit 0. -/
theorem lineEventTouchesOnlyItsActiveBit : Obligations.LineEventTouchesOnlyItsActiveBit := by
  intro s t index level h
  have hchange : Change (.lineEvent index level) s t := exec_next_change h
  obtain rfl : t = setLine index.toNat level s := execLineEvent_next h
  refine ⟨hchange.status_eq nofun, hchange.lines_length, setLine_drivesOnce _ _ _, hchange.sameHost,
    fun j k b b' hb hb' hjk => ?bits⟩
  case bits =>
    obtain rfl | ⟨hline, hagree⟩ := setLine_byte_cases hb hb'
    · rfl
    · exact hagree k (hjk.resolve_left fun hne => hne (of_decide_eq_true hline).symm)

/-! ### ACTIVE along a run (R113) -/

/-- None of the operations that the host presents for the next `k` steps from `s` writes ACTIVE of line `j`. -/
def ActiveUnwritten (k : Nat) (s : State) (j : Nat) : Prop :=
  ∀ (p : Nat) (d : Descriptor) (i : Instr), s.position ≤ p → p < s.position + k → s.program[p]? = some d →
    decode s.config d = .instr i → writesActive s.lines.length j i = false

/-- A step moves by at most one position in the same sequence, so what follows it was presented before. -/
theorem ActiveUnwritten.of_step {k j : Nat} {s t : State} (h : ActiveUnwritten (k + 1) s j) (hstep : step s = .next t) :
    ActiveUnwritten k t j := by
  obtain ⟨hlines, -, hprogram, hlow, hhigh⟩ := step_frame hstep
  intro p d i hp hpk hd hi
  rw [hprogram] at hd
  rw [step_config hstep] at hi
  rw [hlines]
  exact h p d i (by omega) (by omega) hd hi

/-- R113 for one step: bit 0 is a column of the access matrix (10_state.md R31), which the operation does not write. -/
theorem step_active_eq {k j : Nat} {s t : State} {b b' : Byte} (hstep : step s = .next t)
    (h : ActiveUnwritten (k + 1) s j) (hb : s.lines[j]? = some b) (hb' : t.lines[j]? = some b') :
    b'.getLsbD 0 = b.getLsbD 0 := by
  obtain ⟨-, ⟨-, rfl⟩ | ⟨d, i, u, hd, hi, hexec, rfl⟩⟩ := step_next_cases hstep
  · rw [Option.some.inj (hb'.symm.trans hb)]
  · have hunwritten : writesActive s.lines.length j i = false := h _ d i (by omega) (by omega) hd hi
    obtain ⟨-, -, hcolumns⟩ := operationsWriteOnlyTheirColumns i s u hexec
    obtain ⟨hactive, -, -⟩ := hcolumns j b b' hb hb'
    exact hactive hunwritten

theorem exists_line_of_step {j : Nat} {s t : State} {b : Byte} (hstep : step s = .next t)
    (hb : s.lines[j]? = some b) : ∃ c, t.lines[j]? = some c := by
  obtain ⟨hlines, -⟩ := step_frame hstep
  obtain ⟨hlt, -⟩ := List.getElem?_eq_some_iff.mp hb
  exact ⟨_, List.getElem?_eq_getElem (hlines ▸ hlt)⟩

/-- Settles O38, by induction on the number of steps: the first keeps the bit, and the rest of the run starts from the
state it leaves. -/
theorem activeBitPersistsUnlessWritten : Obligations.ActiveBitPersistsUnlessWritten := by
  intro k s t j b b' hrun hunwritten hb hb'
  replace hunwritten : ActiveUnwritten k s j := hunwritten
  induction k generalizing s b with
  | zero =>
    cases hrun
    rw [Option.some.inj (hb'.symm.trans hb)]
  | succ k ih =>
    cases hstep : step s with
    | next u =>
      rw [run_succ_next hstep] at hrun
      obtain ⟨c, hc⟩ := exists_line_of_step hstep hb
      calc b'.getLsbD 0 = c.getLsbD 0 := ih u c hrun hc (hunwritten.of_step hstep)
        _ = b.getLsbD 0 := step_active_eq hstep hunwritten hb hc
    | fault f => rw [run_succ_fault hstep] at hrun; cases hrun
    | refused r => rw [run_succ_refused hstep] at hrun; cases hrun

end Sys2Proof.Machine
end

section
/-! PROOFS. The debug-control port (43_debug_control.md R120 to R127): one debug operation on a valid and on an invalid
index, two in a row on one line, and a LINE_EVENT after one (R126). -/

namespace Sys2Proof.Machine

/-! ### One debug operation (R120 to R124) -/

/-- The descriptor of a debug operation: the header is the operation code alone (30_encoding.md R61, R72). -/
theorem packFields_debugFields (op : OpCode) (index : Word) :
    packFields (debugFields op index) = descriptorOf (0#7 ++ 0#1 ++ 0#4 ++ opBits op) index 0#64 :=
  packFields_eq_descriptorOf (debugFields op index)

/-- All that a debug operation does on a line that exists. -/
theorem debugUpdate_spec {s : State} {index : Word} {j : Nat} {b : Byte} (f : Byte → Byte) (hindex : index.toInt = j)
    (hb : s.lines[j]? = some b) :
    OnlyLine j (f b) s (debugUpdate index f s) ∧ (debugUpdate index f s).status = s.status
      ∧ DrivesOnce s (debugUpdate index f s) ∧ SameHost s (debugUpdate index f s) := by
  obtain ⟨hlt, -⟩ := List.getElem?_eq_some_iff.mp hb
  rw [debugUpdate_valid f hindex hlt]
  exact lineUpdate_spec f hb

/-- The effect that R121 to R124 share: an operation whose meaning is `debugUpdate` with `f` applies `f` to its line, and
on an invalid index does nothing. -/
theorem exec_effect_of_debugUpdate {i : Instr} {s : State} {index : Word} {f : Byte → Byte}
    (hexec : exec i s = .next (debugUpdate index f s)) :
    (∀ (j : Nat) (b : Byte), index.toInt = j → s.lines[j]? = some b →
        ∃ t, exec i s = .next t ∧ OnlyLine j (f b) s t ∧ t.status = s.status ∧ DrivesOnce s t ∧ SameHost s t)
    ∧ ((index.toInt < 0 ∨ (s.lines.length : Int) ≤ index.toInt) → exec i s = .next s) := by
  refine ⟨fun j b hindex hb => ⟨debugUpdate index f s, hexec, debugUpdate_spec f hindex hb⟩, fun hinvalid => ?_⟩
  rw [hexec, debugUpdate_invalid f hinvalid]

/-- Settles O41. -/
theorem debugSetSetsActive : Obligations.DebugSetSetsActive :=
  fun _ index => ⟨packFields_debugFields .dbgSet index, exec_effect_of_debugUpdate (f := setActive) rfl⟩

/-- Settles O42; the mask of `clearActive` is `0xFE` (`clearActive_eq`). -/
theorem debugClearClearsActive : Obligations.DebugClearClearsActive :=
  fun _ index => ⟨packFields_debugFields .dbgClear index, exec_effect_of_debugUpdate (f := clearActive) rfl⟩

/-- Settles O43. -/
theorem debugEnableSetsEnabled : Obligations.DebugEnableSetsEnabled :=
  fun _ index => ⟨packFields_debugFields .dbgEnable index, exec_effect_of_debugUpdate (f := setEnabled) rfl⟩

/-- Settles O44; the mask of `clearEnabled` is `0xFD` (`clearEnabled_eq`). -/
theorem debugDisableClearsEnabled : Obligations.DebugDisableClearsEnabled :=
  fun _ index => ⟨packFields_debugFields .dbgDisable index, exec_effect_of_debugUpdate (f := clearEnabled) rfl⟩

/-- Settles O40: the invalid index of each of R121 to R124. -/
theorem invalidDebugIndexIsSilentNoOp : Obligations.InvalidDebugIndexIsSilentNoOp := by
  intro s index hinvalid
  obtain ⟨-, -, hset⟩ := debugSetSetsActive s index
  obtain ⟨-, -, hclear⟩ := debugClearClearsActive s index
  obtain ⟨-, -, henable⟩ := debugEnableSetsEnabled s index
  obtain ⟨-, -, hdisable⟩ := debugDisableClearsEnabled s index
  exact ⟨hset hinvalid, hclear hinvalid, henable hinvalid, hdisable hinvalid⟩

/-! ### Two debug operations in a row (R127) -/

theorem OnlyLine.line_eq {j : Nat} {b : Byte} {s t : State} (h : OnlyLine j b s t) : t.lines[j]? = some b := by
  obtain ⟨-, hline, -⟩ := h
  exact hline

theorem OnlyLine.trans {j : Nat} {b c : Byte} {s t u : State} (h : OnlyLine j b s t) (h' : OnlyLine j c t u) :
    OnlyLine j c s u := by
  obtain ⟨hlength, -, hothers⟩ := h
  obtain ⟨hlength', hline', hothers'⟩ := h'
  exact ⟨hlength'.trans hlength, hline', fun k hk => (hothers' k hk).trans (hothers k hk)⟩

theorem AgreeOff.trans {m : Nat} {b c d : Byte} (h : AgreeOff m b c) (h' : AgreeOff m c d) : AgreeOff m b d :=
  fun k hk => (h' k hk).trans (h k hk)

/-- A debug operation whose byte function touches only bit `m` leaves everything else as it was. -/
theorem exec_touchesOnly_of_debugUpdate {i : Instr} {s : State} {index : Word} {f : Byte → Byte} {m j : Nat} {b : Byte}
    (hexec : exec i s = .next (debugUpdate index f s)) (hf : ∀ b, AgreeOff m b (f b)) (hindex : index.toInt = j)
    (hb : s.lines[j]? = some b) :
    ∃ t b', exec i s = .next t ∧ OnlyLine j b' s t ∧ t.status = s.status ∧ AgreeOff m b b' := by
  obtain ⟨hline, hstatus, -, -⟩ := debugUpdate_spec f hindex hb
  exact ⟨_, f b, hexec, hline, hstatus, hf b⟩

/-- Two in a row, of which the second clears bit `m`: the bit is clear, whatever it held before the first. -/
theorem debugUpdate_pair {s : State} {index : Word} {f g : Byte → Byte} {m j : Nat} {b : Byte}
    (hf : ∀ b, AgreeOff m b (f b)) (hg : ∀ b, AgreeOff m b (g b)) (hclears : ∀ b, (g b).getLsbD m = false)
    (hindex : index.toInt = j) (hb : s.lines[j]? = some b) :
    ∃ b', OnlyLine j b' s (debugUpdate index g (debugUpdate index f s)) ∧ b'.getLsbD m = false ∧ AgreeOff m b b' := by
  obtain ⟨hfirst, -, -, -⟩ := debugUpdate_spec f hindex hb
  obtain ⟨hsecond, -, -, -⟩ := debugUpdate_spec g hindex hfirst.line_eq
  exact ⟨g (f b), hfirst.trans hsecond, hclears (f b), (hf b).trans (hg (f b))⟩

theorem clearActive_getLsbD_zero (b : Byte) : (clearActive b).getLsbD 0 = false := clearActive_getLsbD b 0

theorem clearEnabled_getLsbD_one (b : Byte) : (clearEnabled b).getLsbD 1 = false := clearEnabled_getLsbD b 1

/-- Settles O45: each of the four byte functions touches one bit only, and the second of each pair clears it. -/
theorem debugPairsTouchOnlyTheirBit : Obligations.DebugPairsTouchOnlyTheirBit := by
  intro s index j b hindex hb
  refine ⟨?active, ?enabled, ?setClear, ?enableDisable⟩
  case active =>
    rintro i (rfl | rfl)
    · exact exec_touchesOnly_of_debugUpdate rfl setActive_agreeOff hindex hb
    · exact exec_touchesOnly_of_debugUpdate rfl clearActive_agreeOff hindex hb
  case enabled =>
    rintro i (rfl | rfl)
    · exact exec_touchesOnly_of_debugUpdate rfl setEnabled_agreeOff hindex hb
    · exact exec_touchesOnly_of_debugUpdate rfl clearEnabled_agreeOff hindex hb
  case setClear =>
    obtain ⟨b', h⟩ := debugUpdate_pair setActive_agreeOff clearActive_agreeOff clearActive_getLsbD_zero hindex hb
    exact ⟨_, _, b', rfl, rfl, h⟩
  case enableDisable =>
    obtain ⟨b', h⟩ := debugUpdate_pair setEnabled_agreeOff clearEnabled_agreeOff clearEnabled_getLsbD_one hindex hb
    exact ⟨_, _, b', rfl, rfl, h⟩

/-! ### A LINE_EVENT after a debug operation (R126) -/

/-- Bytes that agree off ACTIVE are equal once ACTIVE is set. -/
theorem setActive_eq_of_agreeOff {b b' : Byte} (h : AgreeOff 0 b b') : setActive b' = setActive b := by
  refine BitVec.eq_of_getLsbD_eq fun k _ => ?_
  rw [setActive_getLsbD, setActive_getLsbD]
  by_cases hk : k = 0
  · simp [hk]
  · rw [h k hk]

/-- And once ACTIVE is cleared. -/
theorem clearActive_eq_of_agreeOff {b b' : Byte} (h : AgreeOff 0 b b') : clearActive b' = clearActive b := by
  refine BitVec.eq_of_getLsbD_eq fun k _ => ?_
  rw [clearActive_getLsbD, clearActive_getLsbD]
  by_cases hk : k = 0
  · simp [hk]
  · rw [h k hk]

/-- A line event leaves the same registers whether or not ACTIVE of its line was changed before. -/
theorem setLine_lines_of_agreeOff {f : Byte → Byte} (hf : ∀ b, AgreeOff 0 b (f b)) (j : Nat) (level : Bool)
    (s : State) : (setLine j level (recompute (updateLine j f s))).lines = (setLine j level s).lines := by
  have habsorb : (if level then setActive else clearActive) ∘ f = if level then setActive else clearActive := by
    funext b
    cases level with
    | true => exact setActive_eq_of_agreeOff (hf b)
    | false => exact clearActive_eq_of_agreeOff (hf b)
  calc (setLine j level (recompute (updateLine j f s))).lines
      = (s.lines.modify j f).modify j (if level then setActive else clearActive) := rfl
    _ = s.lines.modify j ((if level then setActive else clearActive) ∘ f) := List.modify_modify_eq _ _ j s.lines
    _ = (setLine j level s).lines := by rw [habsorb]; rfl

/-- R126 for any debug operation that changes only ACTIVE: a line event after it overwrites what it left. -/
theorem lineEvent_overwrites_debugUpdate {i : Instr} {s : State} {index : Word} {f : Byte → Byte}
    (hexec : exec i s = .next (debugUpdate index f s)) (hf : ∀ b, AgreeOff 0 b (f b)) (level : Bool)
    (hlt : index.toNat < s.lines.length) (hsigned : index.toNat < 2 ^ 63) :
    ∃ t u w, exec i s = .next t ∧ exec (.lineEvent index level) t = .next u
      ∧ exec (.lineEvent index level) s = .next w
      ∧ u.lines = w.lines ∧ u.status = w.status ∧ u.irqOut = w.irqOut := by
  have hindex : index.toInt = index.toNat := BitVec.toInt_eq_toNat_of_lt (by omega)
  rw [debugUpdate_valid f hindex hlt] at hexec
  have hlines := setLine_lines_of_agreeOff hf index.toNat level s
  refine ⟨_, _, _, hexec, execLineEvent_valid level (by simpa using hlt), execLineEvent_valid level hlt, hlines, rfl,
    ?output⟩
  case output => exact congrArg (aggregate s.status) hlines

/-- Settles O39: DBG_SET and DBG_CLEAR change only ACTIVE, which the event writes. -/
theorem lineEventOverwritesDebugActive : Obligations.LineEventOverwritesDebugActive := by
  rintro s index level i hlt hsigned (rfl | rfl)
  · exact lineEvent_overwrites_debugUpdate rfl setActive_agreeOff level hlt hsigned
  · exact lineEvent_overwrites_debugUpdate rfl clearActive_agreeOff level hlt hsigned

end Sys2Proof.Machine
end

section
/-! PROOFS. Completion and log events (60_exceptions.md R141, R143): which responses and which log events each operation
adds to the trace, and the one fault. -/

namespace Sys2Proof.Machine

/-! ### What the operations of the state record -/

/-- The update engine records a drive only. -/
theorem recompute_readsOf (s : State) : readsOf (recompute s).trace = readsOf s.trace := by
  simp [readsOf]

theorem recompute_logsOf (s : State) : logsOf (recompute s).trace = logsOf s.trace := by
  simp [logsOf]

theorem respond_logsOf (v : Word) (s : State) : logsOf (respond v s).trace = logsOf s.trace := by
  simp [logsOf]

theorem logInvalid_logsOf (e : LogEntry) (s : State) : logsOf (logInvalid e s).trace = logsOf s.trace ++ [e] := by
  simp [logsOf]

/-- An operation that faults is a LINE_EVENT, and stops in the state it started from but for the fault mark (R112). -/
theorem exec_fault_cases {i : Instr} {s : State} {f : Fault} (h : exec i s = .fault f) :
    ∃ index level, i = .lineEvent index level ∧ f = raiseInvalidInputLine index s := by
  obtain ⟨t, ht, -⟩ | ⟨index, level, hi, -, hfault⟩ := exec_inversion i s
  · cases ht.symm.trans h
  · exact ⟨index, level, hi, Host.Outcome.fault.inj (h.symm.trans hfault)⟩

/-! ### Responses (R141) -/

theorem busWrite_readsOf (offset : Word) (size : Nat) (value : Word) (s : State) :
    readsOf (busWrite offset size value s).trace = readsOf s.trace := by
  obtain ⟨-, h⟩ | ⟨-, -, h⟩ | ⟨-, -, h⟩ := busWrite_spec offset size value s <;> rw [h]
  · exact recompute_readsOf (setStatus (statusOfData value) s)
  · exact recompute_readsOf (updateLine (offset.toNat - 4) (fun _ => byteOfData value) s)
  · simp [readsOf]

/-- Settles O28: a read completes with its response by R89, a write is `busWrite`, and `exec_fault_cases` names the one
operation that faults. -/
theorem busAccessesAlwaysComplete : Obligations.BusAccessesAlwaysComplete := by
  refine ⟨fun i s hi => ?reads, fun i s hi => ?writes, fun i s f h => ?faults⟩
  case reads =>
    obtain ⟨v, es, hread, -, hes⟩ := busReadsChangeNoState i s hi
    exact ⟨_, v, hread, by simp [hes, readsOf]⟩
  case writes =>
    obtain ⟨offset, size, value, hexec, -⟩ := exec_of_busWrite hi
    exact ⟨_, hexec s, busWrite_readsOf offset size value s⟩
  case faults =>
    obtain ⟨index, level, rfl, -⟩ := exec_fault_cases h
    rfl

/-! ### Log events (R143) -/

/-- A read of the status word or of lines that all exist is served, and so logs nothing. -/
theorem logsBy_readLine_of_served {n : Nat} {offset : Word} {size : Nat}
    (h : offset.toNat = 0 ∨ (4 ≤ offset.toNat ∧ (offset.toNat - 4) + size ≤ n ∧ offset.toNat < 4 + n)) :
    logsBy n (.readLine offset size) = [] :=
  if_pos h

theorem logsBy_readLine_of_not_served {n : Nat} {offset : Word} {size : Nat}
    (h : ¬(offset.toNat = 0 ∨ (4 ≤ offset.toNat ∧ (offset.toNat - 4) + size ≤ n ∧ offset.toNat < 4 + n))) :
    logsBy n (.readLine offset size) = [.invalidRead offset size] :=
  if_neg h

theorem logsBy_writeLine_of_served {n : Nat} {offset value : Word} {size : Nat}
    (h : offset.toNat = 0 ∨ (4 ≤ offset.toNat ∧ offset.toNat < 4 + n)) :
    logsBy n (.writeLine offset size value) = [] :=
  if_pos h

theorem logsBy_writeLine_of_not_served {n : Nat} {offset value : Word} {size : Nat}
    (h : ¬(offset.toNat = 0 ∨ (4 ≤ offset.toNat ∧ offset.toNat < 4 + n))) :
    logsBy n (.writeLine offset size value) = [.invalidWrite offset size value] :=
  if_neg h

theorem rdOverrun_logsOf (offset : Word) (size : Nat) (s : State) :
    logsOf (rdOverrun offset size s).trace = logsOf s.trace ++ [.invalidRead offset size] :=
  (respond_logsOf 0#64 _).trans (logInvalid_logsOf _ s)

/-- A read logs in the two cases RD.OVERRUN and RD.INVALID of the address decode (30_encoding.md R66). -/
theorem busRead_logsOf (offset : Word) (size : Nat) (s : State) :
    logsOf (busRead offset size s).trace = logsOf s.trace ++ logsBy s.lines.length (.readLine offset size) := by
  obtain ⟨h0, -⟩ | ⟨hlow, hhigh, hfit, -⟩ | ⟨hlow, hhigh, hover, -⟩ | ⟨h0, hout, -⟩ :=
    decodeRead_cases s.lines.length offset size
  · obtain rfl : offset = 0#64 := BitVec.eq_of_toNat_eq h0
    rw [busRead_status, logsBy_readLine_of_served (.inl rfl), List.append_nil]
    exact respond_logsOf _ s
  · rw [busRead_lines hlow hhigh hfit, logsBy_readLine_of_served (.inr ⟨hlow, hfit, hhigh⟩), List.append_nil]
    exact respond_logsOf _ s
  · rw [busRead_overrun hlow hhigh hover, logsBy_readLine_of_not_served (by omega)]
    exact rdOverrun_logsOf offset size s
  · rw [busRead_invalid h0 hout, logsBy_readLine_of_not_served (by omega)]
    exact rdOverrun_logsOf offset size s

/-- A write logs in the one case WR.INVALID. -/
theorem busWrite_logsOf (offset : Word) (size : Nat) (value : Word) (s : State) :
    logsOf (busWrite offset size value s).trace
      = logsOf s.trace ++ logsBy s.lines.length (.writeLine offset size value) := by
  obtain ⟨h0, h⟩ | ⟨hlow, hhigh, h⟩ | ⟨h0, hout, h⟩ := busWrite_spec offset size value s <;> rw [h]
  · rw [logsBy_writeLine_of_served (.inl h0), List.append_nil]
    exact recompute_logsOf (setStatus (statusOfData value) s)
  · rw [logsBy_writeLine_of_served (.inr ⟨hlow, hhigh⟩), List.append_nil]
    exact recompute_logsOf (updateLine (offset.toNat - 4) (fun _ => byteOfData value) s)
  · rw [logsBy_writeLine_of_not_served (by omega)]
    exact logInvalid_logsOf _ s

/-- A debug operation logs nothing, also on an invalid index (43_debug_control.md R120). -/
theorem debugUpdate_logsOf (index : Word) (f : Byte → Byte) (s : State) :
    logsOf (debugUpdate index f s).trace = logsOf s.trace := by
  obtain ⟨j, -, -, h⟩ | ⟨-, h⟩ := debugUpdate_cases index f s
  · rw [h]
    exact recompute_logsOf (updateLine j f s)
  · rw [h]

/-- The log events of an operation that completes are those that R143 gives it: each row of a bus operation is the port's
own dispatch, the two status rows at offset 0, where it logs nothing. -/
theorem exec_logsOf {i : Instr} {s t : State} (h : exec i s = .next t) :
    logsOf t.trace = logsOf s.trace ++ logsBy s.lines.length i := by
  cases i with
  | readStatus size =>
    cases h
    exact busRead_logsOf 0#64 size s
  | readLine offset size | readOverrun offset size | readInvalid offset size =>
    cases h
    exact busRead_logsOf offset size s
  | writeStatus size value =>
    cases h
    exact busWrite_logsOf 0#64 size value s
  | writeLine offset size value | writeInvalid offset size value =>
    cases h
    exact busWrite_logsOf offset size value s
  | lineEvent index level =>
    cases execLineEvent_next h
    exact (recompute_logsOf _).trans (List.append_nil _).symm
  | dbgSet index | dbgClear index | dbgEnable index | dbgDisable index =>
    cases h
    exact (debugUpdate_logsOf index _ s).trans (List.append_nil _).symm

/-- Settles O29: `exec_logsOf` for the operations that complete, a fault leaves the trace, and `exec` commutes with any
event before the trace. -/
theorem logEventsExactlyForInvalidAccesses : Obligations.LogEventsExactlyForInvalidAccesses := by
  refine ⟨fun i s t => exec_logsOf, fun i s f h => ?faults, fun i s e => exec_afterTrace [.log e] i s⟩
  case faults =>
    obtain ⟨index, level, -, rfl⟩ := exec_fault_cases h
    rfl

end Sys2Proof.Machine
end

section
/-! PROOFS. Software's accesses one after another: a line read right after a line write (70_reset_and_hazards.md R175),
and the writes of 0 that bring the registers back to their reset values (R171). -/

namespace Sys2Proof.Machine

/-! ### A line read after a line write (R175) -/

/-- Settles O32: the write changes one line and no length (O25), so the read is served and answers the new lines (O21),
byte 0 of which is the line written. -/
theorem lineReadAfterWriteReturnsWrittenByte : Obligations.LineReadAfterWriteReturnsWrittenByte := by
  intro s offset wsize rsize value hlow hhigh hsize hfit
  obtain ⟨-, t, hwrite, ⟨hlength, hline, hothers⟩, -, -, -⟩ :=
    writeLineWritesExactlyOneByte s offset wsize value hlow hhigh
  obtain ⟨-, v, hread, hbytes, -⟩ := readLinePacksLittleEndian t offset rsize hlow (by omega) (by omega)
  refine ⟨t, v, hwrite, hread, ?written, fun k b hk hkr hk8 hb => ?neighbour⟩
  case written => exact (hbytes 0 _ (by omega) hsize hline).trans (BitVec.setWidth_eq_extractLsb' (by decide))
  case neighbour => exact hbytes k b hk8 hkr ((hothers _ (by omega)).trans hb)

/-! ### Operations one after another -/

theorem execAll_cons_next {i : Instr} {is : List Instr} {s t : State} (h : exec i s = .next t) :
    execAll (i :: is) s = execAll is t := by
  simp only [execAll, h]

/-- A property that every operation keeps holds after any operations from a state that has it. -/
theorem execAll_next_of_exec {P : State → Prop} (hexec : ∀ i s t, P s → exec i s = .next t → P t) {is : List Instr}
    {s t : State} (hs : P s) (h : execAll is s = .next t) : P t := by
  induction is generalizing s with
  | nil => cases h; exact hs
  | cons i is ih =>
    cases hu : exec i s with
    | next u => rw [execAll_cons_next hu] at h; exact ih (hexec i s u hs hu) h
    | fault f => simp only [execAll, hu] at h; cases h
    | refused r => simp only [execAll, hu] at h; cases h

theorem SameHost.trans {s t u : State} (h : SameHost s t) (h' : SameHost t u) : SameHost s u := by
  obtain ⟨hsizes, hmark, hprogram, hposition⟩ := h
  obtain ⟨hsizes', hmark', hprogram', hposition'⟩ := h'
  exact ⟨hsizes'.trans hsizes, hmark'.trans hmark, hprogram'.trans hprogram, hposition'.trans hposition⟩

theorem execAll_sameHost {is : List Instr} {s t : State} (h : execAll is s = .next t) : SameHost s t :=
  execAll_next_of_exec (P := SameHost s) (fun _ _ _ hs he => hs.trans (exec_next_change he).sameHost)
    ⟨rfl, rfl, rfl, rfl⟩ h

/-- R105 over any operations. -/
theorem execAll_irqOut_eq_aggregate {is : List Instr} {s t : State} (hs : s.irqOut = aggregate s.status s.lines)
    (h : execAll is s = .next t) : t.irqOut = aggregate t.status t.lines :=
  execAll_next_of_exec (P := fun u => u.irqOut = aggregate u.status u.lines)
    (fun _ _ _ hu he => (exec_next_change he).irqOut_eq_aggregate hu) hs h

/-! ### The writes of 0 (R171) -/

/-- The write of 0 to line register `i`. -/
def zeroLineWrite (i : Nat) : Instr := .writeLine (BitVec.ofNat 64 (4 + i)) 1 0#64

theorem zeroWrites_eq (n : Nat) :
    zeroWrites n = .writeStatus 4 0#64 :: (List.range n).map zeroLineWrite := rfl

/-- The offset `4 + i` fits 64 bits, so the write reaches line `i`. -/
theorem exec_zeroLineWrite {s : State} {i : Nat} (hN : s.lines.length + 4 ≤ 2 ^ 64) (hi : i < s.lines.length) :
    ∃ t, exec (zeroLineWrite i) s = .next t ∧ OnlyLine i 0#8 s t ∧ t.status = s.status := by
  have hoffset : (BitVec.ofNat 64 (4 + i)).toNat = 4 + i := by
    rw [BitVec.toNat_ofNat, Nat.mod_eq_of_lt (by omega)]
  obtain ⟨-, t, hwrite, honly, hstatus, -, -⟩ :=
    writeLineWritesExactlyOneByte s (BitVec.ofNat 64 (4 + i)) 1 0#64 (by omega) (by omega)
  rw [hoffset, Nat.add_sub_cancel_left] at honly
  exact ⟨t, hwrite, honly, hstatus⟩

theorem OnlyLine.lines_length {i : Nat} {b : Byte} {s t : State} (h : OnlyLine i b s t) :
    t.lines.length = s.lines.length := by
  obtain ⟨hlength, -, -⟩ := h
  exact hlength

/-- From `s` to `t` the line registers named in `is` become 0; the others, and the status word, stay. -/
def ZeroesLines (is : List Nat) (s t : State) : Prop :=
  t.status = s.status ∧ ∀ j, t.lines[j]? = if j ∈ is then some 0#8 else s.lines[j]?

theorem ZeroesLines.status_eq {is : List Nat} {s t : State} (h : ZeroesLines is s t) : t.status = s.status := by
  obtain ⟨hstatus, -⟩ := h
  exact hstatus

theorem ZeroesLines.cons {i : Nat} {is : List Nat} {s t u : State} (hline : OnlyLine i 0#8 s t)
    (hstatus : t.status = s.status) (h : ZeroesLines is t u) : ZeroesLines (i :: is) s u := by
  obtain ⟨-, hzero, hothers⟩ := hline
  obtain ⟨hstatus', hlines⟩ := h
  refine ⟨hstatus'.trans hstatus, fun j => ?_⟩
  rw [hlines j]
  by_cases hj : j = i
  · simp [hj, hzero]
  · simp [hj, hothers j hj]

theorem execAll_zeroLineWrites {is : List Nat} {s : State} (hN : s.lines.length + 4 ≤ 2 ^ 64)
    (his : ∀ i ∈ is, i < s.lines.length) :
    ∃ t, execAll (is.map zeroLineWrite) s = .next t ∧ ZeroesLines is s t := by
  induction is generalizing s with
  | nil => exact ⟨s, rfl, rfl, fun j => by simp⟩
  | cons i is ih =>
    obtain ⟨hi, his⟩ := List.forall_mem_cons.mp his
    obtain ⟨u, hwrite, honly, hstatus⟩ := exec_zeroLineWrite hN hi
    have hlength : u.lines.length = s.lines.length := honly.lines_length
    obtain ⟨t, hall, hzero⟩ := ih (s := u) (by rwa [hlength]) (by rwa [hlength])
    exact ⟨t, by rw [List.map_cons, execAll_cons_next hwrite, hall], .cons honly hstatus hzero⟩

/-- Zeroing every line there is leaves the lines of construction. -/
theorem ZeroesLines.lines_eq {s t : State} (h : ZeroesLines (List.range s.lines.length) s t) :
    t.lines = List.replicate s.lines.length 0#8 := by
  obtain ⟨-, hlines⟩ := h
  apply List.ext_getElem?
  intro j
  rw [hlines j, List.getElem?_replicate]
  by_cases hj : j < s.lines.length
  · rw [if_pos (List.mem_range.mpr hj), if_pos hj]
  · rw [if_neg (mt List.mem_range.mp hj), if_neg hj, List.getElem?_eq_none (Nat.le_of_not_lt hj)]

/-- Settles O33: the status write leaves the output at the aggregate, which the line writes keep (R105) and which is
false with the status word 0. -/
theorem zeroWritesRestoreResetRegisters : Obligations.ZeroWritesRestoreResetRegisters := by
  intro s hN
  obtain ⟨-, u, hwrite, hstatus, hlines, ⟨hirq, -⟩, -⟩ := writeStatusReplacesWholeWord s 4 0#64
  obtain ⟨t, hwrites, hzero⟩ :=
    execAll_zeroLineWrites (is := List.range u.lines.length) (s := u) (by rwa [hlines]) fun _ => List.mem_range.mp
  have hall : execAll (zeroWrites s.lines.length) s = .next t := by
    rw [zeroWrites_eq, execAll_cons_next hwrite, ← hlines, hwrites]
  have hstatus_zero : t.status = 0#32 := hzero.status_eq.trans hstatus
  have hirq_false : t.irqOut = false := by
    rw [execAll_irqOut_eq_aggregate hirq hwrites, hstatus_zero, aggregate_zero]
  exact ⟨t, hall, hstatus_zero, hlines ▸ hzero.lines_eq, hirq_false, execAll_sameHost hall⟩

end Sys2Proof.Machine
end

section
/-! PROOFS. The runs of 70_reset_and_hazards.md R183: which lists of descriptors run to a clean end, and that a run which
stops earlier does not depend on what the host would have presented afterwards. -/

namespace Sys2Proof.Machine

/-! ### What the host still has to present -/

/-- In `s` the host presents exactly `ds` from the position on. -/
def Presents (ds : List Descriptor) (s : State) : Prop := s.program.drop s.position = ds

theorem presents_ofConfig (c : Config) (ds : List Descriptor) : Presents ds (presentAll ds (State.ofConfig c)) := rfl

theorem Presents.next_eq {d : Descriptor} {ds : List Descriptor} {s : State} (h : Presents (d :: ds) s) :
    s.program[s.position]? = some d := by
  rw [← List.head?_drop, h, List.head?_cons]

/-- A step with a descriptor presented applies it, and the rest remains. -/
theorem Presents.of_step {d : Descriptor} {ds : List Descriptor} {s t : State} (h : Presents (d :: ds) s)
    (hstep : step s = .next t) : Presents ds t := by
  obtain ⟨-, ⟨hexhausted, -⟩ | ⟨_, i, u, -, -, hexec, rfl⟩⟩ := step_next_cases hstep
  · cases h.next_eq.symm.trans (List.getElem?_eq_none hexhausted)
  · obtain ⟨-, -, hprogram, hposition⟩ := (exec_next_change hexec).sameHost
    rw [Presents, advance_program, advance_position, hprogram, hposition, ← List.tail_drop, h, List.tail_cons]

/-! ### Clean runs -/

/-- The descriptor spells an operation, and no LINE_EVENT on a line that does not exist: what R183 asks of the
descriptors of a run that ends cleanly. -/
def Completes (c : Config) (d : Descriptor) : Prop :=
  ∃ i, decode c d = .instr i ∧ ∀ index level, i = .lineEvent index level → index.toNat < c.numIrqs

theorem exec_completes_iff (i : Instr) (s : State) :
    (∃ t, exec i s = .next t) ↔ ∀ index level, i = .lineEvent index level → index.toNat < s.lines.length := by
  constructor
  · rintro ⟨t, ht⟩ index level rfl
    by_contra hindex
    cases ht.symm.trans (execLineEvent_invalid level (Nat.le_of_not_lt hindex))
  · intro h
    obtain ⟨t, ht, -⟩ | ⟨index, level, hi, hindex, -⟩ := exec_inversion i s
    · exact ⟨t, ht⟩
    · exact absurd (h index level hi) (Nat.not_lt.mpr hindex)

theorem step_completes_iff {s : State} {d : Descriptor} (hm : s.faultMark = .none)
    (hd : s.program[s.position]? = some d) : (∃ t, step s = .next t) ↔ Completes s.config d := by
  constructor
  · rintro ⟨t, ht⟩
    obtain ⟨-, ⟨hexhausted, -⟩ | ⟨d', i, u, hd', hdec, hexec, -⟩⟩ := step_next_cases ht
    · cases hd.symm.trans (List.getElem?_eq_none hexhausted)
    · obtain rfl : d = d' := Option.some.inj (hd.symm.trans hd')
      exact ⟨i, hdec, (exec_completes_iff i s).mp ⟨u, hexec⟩⟩
  · rintro ⟨i, hdec, hline⟩
    obtain ⟨u, hexec⟩ := (exec_completes_iff i s).mpr hline
    exact ⟨advance u, by rw [step_of_decode hm hd hdec, hexec]; rfl⟩

/-- By induction on the descriptors: the first step completes exactly on a descriptor that completes, and the rest of
the run starts from a state of the same configuration. -/
theorem runFrom_clean_iff {ds : List Descriptor} {s : State} (hm : s.faultMark = .none) (hds : Presents ds s) :
    (∃ o, runFrom ds.length s = .clean o) ↔ ∀ d ∈ ds, Completes s.config d := by
  induction ds generalizing s with
  | nil => exact iff_of_true ⟨observe s, rfl⟩ nofun
  | cons d ds ih =>
    rw [List.forall_mem_cons, ← step_completes_iff hm hds.next_eq, List.length_cons]
    cases hstep : step s with
    | next t =>
      rw [runFrom_succ_next hstep, ih (step_faultMark hstep) (hds.of_step hstep), step_config hstep]
      exact (and_iff_right ⟨t, rfl⟩).symm
    | fault f => rw [runFrom_succ_fault hstep]; exact iff_of_false nofun nofun
    | refused r => rw [runFrom_succ_refused hstep]; exact iff_of_false nofun nofun

/-- Settles O49: `runFrom_clean_iff` from the state that construction leaves. -/
theorem runIsCleanExactlyWhenAllAdmitted : Obligations.RunIsCleanExactlyWhenAllAdmitted := by
  intro c ds
  have h := runFrom_clean_iff (s := presentAll ds (State.ofConfig c)) rfl (presents_ofConfig c ds)
  rwa [presentAll_config, ofConfig_config] at h

/-! ### Later descriptors play no part in a step -/

/-- A fault's stopped state with `more` appended to the host's sequence. -/
def presentAllFault (more : List Descriptor) : Fault → Fault
  | .invalidInputLine i s => .invalidInputLine i (presentAll more s)
  | .halted s => .halted (presentAll more s)

/-- An outcome's state with `more` appended to the host's sequence. -/
def presentAllOutcome (more : List Descriptor) :
    Host.Outcome State Fault Refusal → Host.Outcome State Fault Refusal
  | .next s => .next (presentAll more s)
  | .fault f => .fault (presentAllFault more f)
  | .refused r => .refused r

theorem stoppedState_presentAllFault (more : List Descriptor) (f : Fault) :
    stoppedState (presentAllFault more f) = presentAll more (stoppedState f) := by
  cases f <;> rfl

theorem observe_presentAll (more : List Descriptor) (s : State) : observe (presentAll more s) = observe s := rfl

theorem busRead_presentAll (more : List Descriptor) (offset : Word) (size : Nat) (s : State) :
    busRead offset size (presentAll more s) = presentAll more (busRead offset size s) := by
  unfold busRead
  rw [presentAll_lines]
  cases decodeRead s.lines.length offset size with
  | status | lines | overrun | invalid => rfl

theorem busWrite_presentAll (more : List Descriptor) (offset : Word) (size : Nat) (value : Word) (s : State) :
    busWrite offset size value (presentAll more s) = presentAll more (busWrite offset size value s) := by
  unfold busWrite
  rw [presentAll_lines]
  cases decodeWrite s.lines.length offset with
  | status | line | invalid => rfl

theorem debugUpdate_presentAll (more : List Descriptor) (index : Word) (f : Byte → Byte) (s : State) :
    debugUpdate index f (presentAll more s) = presentAll more (debugUpdate index f s) := by
  unfold debugUpdate
  rw [presentAll_lines]
  split
  · rfl
  · rfl

theorem execLineEvent_presentAll (more : List Descriptor) (index : Word) (level : Bool) (s : State) :
    execLineEvent index level (presentAll more s) = presentAllOutcome more (execLineEvent index level s) := by
  unfold execLineEvent
  rw [presentAll_lines]
  split
  · rfl
  · rfl

theorem exec_presentAll (more : List Descriptor) (i : Instr) (s : State) :
    exec i (presentAll more s) = presentAllOutcome more (exec i s) := by
  cases i with
  | readStatus | readLine | readOverrun | readInvalid => exact congrArg _ (busRead_presentAll more _ _ s)
  | writeStatus | writeLine | writeInvalid => exact congrArg _ (busWrite_presentAll more _ _ _ s)
  | lineEvent index level => exact execLineEvent_presentAll more index level s
  | dbgSet | dbgClear | dbgEnable | dbgDisable => exact congrArg _ (debugUpdate_presentAll more _ _ s)

theorem advanceOutcome_presentAllOutcome (more : List Descriptor) (o : Host.Outcome State Fault Refusal) :
    advanceOutcome (presentAllOutcome more o) = presentAllOutcome more (advanceOutcome o) := by
  cases o <;> rfl

/-- The equations of `step` at a descriptor presented: appending `more` leaves that descriptor where it is. -/
theorem step_presentAll (more : List Descriptor) {s : State} {d : Descriptor} (hd : s.program[s.position]? = some d) :
    step (presentAll more s) = presentAllOutcome more (step s) := by
  obtain ⟨hlt, -⟩ := List.getElem?_eq_some_iff.mp hd
  have hd' : (presentAll more s).program[(presentAll more s).position]? = some d := by
    rw [presentAll_program, presentAll_position, List.getElem?_append_left hlt, hd]
  by_cases hm : s.faultMark = .none
  · cases hdec : decode s.config d with
    | refuse r => rw [step_of_refuse hm hd hdec, step_of_refuse (s := presentAll more s) hm hd' hdec]; rfl
    | instr i =>
      rw [step_of_decode hm hd hdec, step_of_decode (s := presentAll more s) hm hd' hdec, exec_presentAll,
        advanceOutcome_presentAllOutcome]
  · rw [step_of_faultMark hm, step_of_faultMark (s := presentAll more s) hm]; rfl

/-! ### Runs that stop -/

/-- By induction on the descriptors: up to the step that stops, both runs take the same steps; what they stop in differs
only in the sequence, which is not observed. -/
theorem runFrom_presentAll_of_not_clean {ds more : List Descriptor} {s : State} (hds : Presents ds s)
    (hstop : ∀ o, runFrom ds.length s ≠ .clean o) (k : Nat) :
    runFrom (ds.length + k) (presentAll more s) = runFrom ds.length s := by
  induction ds generalizing s with
  | nil => exact absurd rfl (hstop (observe s))
  | cons d ds ih =>
    have hstep' : step (presentAll more s) = presentAllOutcome more (step s) := step_presentAll more hds.next_eq
    rw [List.length_cons, Nat.add_right_comm]
    rw [List.length_cons] at hstop
    cases hstep : step s with
    | next t =>
      rw [hstep] at hstep'
      rw [runFrom_succ_next hstep] at hstop ⊢
      rw [runFrom_succ_next hstep']
      exact ih (hds.of_step hstep) hstop
    | fault f =>
      rw [hstep] at hstep'
      rw [runFrom_succ_fault hstep, runFrom_succ_fault hstep', stoppedState_presentAllFault, presentAll_faultMark,
        observe_presentAll]
    | refused r =>
      rw [hstep] at hstep'
      rw [runFrom_succ_refused hstep, runFrom_succ_refused hstep', observe_presentAll]

theorem runEnd_append_of_not_clean {c : Config} {ds more : List Descriptor} (hstop : ∀ o, runEnd c ds ≠ .clean o) :
    runEnd c (ds ++ more) = runEnd c ds := by
  have hpresent : presentAll (ds ++ more) (State.ofConfig c) = presentAll more (presentAll ds (State.ofConfig c)) := rfl
  rw [runEnd, hpresent, List.length_append]
  exact runFrom_presentAll_of_not_clean (presents_ofConfig c ds) hstop more.length

/-- Settles O50: a faulted or refused end is no clean one. -/
theorem stoppedRunIgnoresLaterDescriptors : Obligations.StoppedRunIgnoresLaterDescriptors := by
  intro c ds more
  refine ⟨fun m o h => ?faulted, fun r o h => ?refused⟩
  case faulted => rw [runEnd_append_of_not_clean (by rw [h]; nofun), h]
  case refused => rw [runEnd_append_of_not_clean (by rw [h]; nofun), h]

end Sys2Proof.Machine
end

section
/-! PROOFS. The block's outside: a host that presents nothing (60_exceptions.md R157), and a requester behind a bus that
may truncate read data (92_eei_decisions.md D6). -/

namespace Sys2Proof.Machine

/-! ### Nothing presented (R157) -/

/-- Settles O7: a position at or beyond the end of the sequence holds no descriptor, so the step is `step_of_nothing`. -/
theorem nothingPresentedLeavesTheState : Obligations.NothingPresentedLeavesTheState := by
  intro s hmark hend
  have hnone : s.program[s.position]? = none := List.getElem?_eq_none hend
  exact step_of_nothing hmark hnone

/-! ### The requester's view of read data (D6) -/

theorem requesterData_false (size : Nat) (rdata : Word) : requesterData false size rdata = rdata := rfl

/-- The remainder fits the 64 bits of the data, so nothing is cut off a second time. -/
theorem requesterData_true_toNat (size : Nat) (rdata : Word) :
    (requesterData true size rdata).toNat = rdata.toNat % 2 ^ (8 * size) :=
  Nat.mod_eq_of_lt ((Nat.mod_le _ _).trans_lt rdata.isLt)

theorem requesterData_true_getLsbD (size : Nat) (rdata : Word) (k : Nat) :
    (requesterData true size rdata).getLsbD k = (decide (k < 8 * size) && rdata.getLsbD k) := by
  rw [← BitVec.testBit_toNat, requesterData_true_toNat, Nat.testBit_mod_two_pow, BitVec.testBit_toNat]

/-- Settles O34: one equation of `requesterData` for each value of the host parameter. -/
theorem requesterSeesTruncatedOrWholeData : Obligations.RequesterSeesTruncatedOrWholeData :=
  fun size rdata => ⟨requesterData_false size rdata, requesterData_true_getLsbD size rdata⟩

end Sys2Proof.Machine
end
